-- ==== Sys2Proof/Word.lean ====
section
/-! DEFINITION. The byte and the other plain words of the SP108E frame codec (00_scope.md R10). -/

namespace Sys2Proof

/-- A byte: "an unsigned 8-bit value, 0 to 255" (00_scope.md R10). -/
abbrev Byte := BitVec 8

/-- A 16-bit field of the status response (20_memory.md R42, 41_frame_codec.md R101). -/
abbrev Half := BitVec 16

/-- A symbolic name: its characters as ASCII bytes, first character first (10_state.md R26).
[DESIGN CHOICE, log entry 12.] -/
abbrev Name := List Byte

end Sys2Proof
end

