-- ==== Sys2Proof/Machine/Constants.lean ====
section
/-! DEFINITION. The constants the source fixes (00_scope.md R5). -/

namespace Sys2Proof

/-- `HEAD`, "marks start of a command" (00_scope.md R5, 10_state.md R24). -/
def head : Byte := 0x38

/-- `TAIL`, "marks end of frame" (00_scope.md R5, 10_state.md R24). -/
def tail : Byte := 0x83

/-- `FRAME_LEN`: bytes in a command frame (00_scope.md R5). -/
def frameLen : Nat := 6

/-- `PAYLOAD_LEN`: bytes in the PAYLOAD field (00_scope.md R5). -/
def payloadLen : Nat := 3

/-- `SETTINGS_LEN`: bytes in the raw status response (00_scope.md R5). -/
def settingsLen : Nat := 17

/-- `NAME_LEN`: bytes in the name response (00_scope.md R5). -/
def nameLen : Nat := 18

/-- `READY_LEN`: bytes in the readiness response (00_scope.md R5). -/
def readyLen : Nat := 1

/-- `BYTE_MAX`: upper bound of a one-byte operand (00_scope.md R5). -/
def byteMax : Int := 255

/-- `WORD_MAX`: upper bound of leds per segment and of the segment count (00_scope.md R5). -/
def wordMax : Int := 65535

/-- Upper bound of the colour operand, `0xffffff` (43_commands.md R143). -/
def rgbMax : Int := 16777215

/-- `MIXED_MIN`: least mixed-animation index (00_scope.md R5). -/
def mixedMin : Int := 1

/-- `MIXED_MAX`: greatest mixed-animation index (00_scope.md R5). -/
def mixedMax : Int := 180

/-- `DEFAULT_WHITE`: white brightness when the operand is omitted (00_scope.md R5, 43_commands.md R160). -/
def defaultWhite : Int := 80

/-- `DEFAULT_SEGMENTS`: segment count when the operand is omitted (00_scope.md R5, 43_commands.md R160). -/
def defaultSegments : Int := 1

/-- `DEFAULT_LEDS`: leds per segment when the operand is omitted (00_scope.md R5, 43_commands.md R160). -/
def defaultLeds : Int := 154

end Sys2Proof
end

