-- ==== Sys2Proof/Machine/Bytes.lean ====
section
/-! DEFINITION. Byte sequences and their integers (00_scope.md R10 and R11): the big-endian value of a
sequence and its inverse, the length of a number in bits, the hexadecimal rendering, the padding of a payload. -/

namespace Sys2Proof

/-- `be(s)`: the big-endian value of a byte sequence, `be(s ++ [b]) = be(s) * 256 + b` (00_scope.md R11). -/
def be (s : List Byte) : Nat := s.foldl (fun v b => v * 256 + b.toNat) 0

/-- `bytes_be(v, n)`: the `n` low-order bytes of `v`, most significant first; byte `i` is
`floor(v / 256^(n-1-i)) mod 256` (00_scope.md R11). The rules use it only where `v < 256^n`. -/
def bytesBE (v : Nat) : Nat → List Byte
  | 0 => []
  | n + 1 => bytesBE (v / 256) n ++ [BitVec.ofNat 8 v]

/-- `zeros(n)`: `n` bytes `0x00` (00_scope.md R11). -/
def zeros (n : Nat) : List Byte := List.replicate n 0x00

/-- `bitlen(v)`: the number of binary digits of `v`, `bitlen(0) = 0` (00_scope.md R11). -/
def bitlen (v : Nat) : Nat := if v = 0 then 0 else Nat.log2 v + 1

/-- `minw(v) = max(1, ceil(bitlen(v) / 8))`: the fewest whole bytes, at least one (40_value_encoder.md R91). -/
def minWidth (v : Nat) : Nat := max 1 ((bitlen v + 7) / 8)

/-- `pad3(p) = zeros(3 - len(p)) ++ p`: zeros on the high-order side (30_encoding.md R62, 90_conflicts.md C1;
log entry 15). -/
def pad3 (p : List Byte) : List Byte := zeros (payloadLen - p.length) ++ p

/-- The digit of a nibble, lower case (00_scope.md R11, 40_value_encoder.md R92). -/
def hexDigitLc (n : Nat) : Char := if n < 10 then Char.ofNat (48 + n) else Char.ofNat (87 + n)

/-- The digit of a nibble, upper case (00_scope.md R11, 41_frame_codec.md R105). -/
def hexDigitUc (n : Nat) : Char := if n < 10 then Char.ofNat (48 + n) else Char.ofNat (55 + n)

/-- `hex_lc(s)`: two digits per byte, high nibble first, lower case (00_scope.md R11). -/
def hexLc (s : List Byte) : List Char := s.flatMap fun b => [hexDigitLc (b.toNat / 16), hexDigitLc (b.toNat % 16)]

/-- `hex_uc(s)`: two digits per byte, high nibble first, upper case (00_scope.md R11). -/
def hexUc (s : List Byte) : List Char := s.flatMap fun b => [hexDigitUc (b.toNat / 16), hexDigitUc (b.toNat % 16)]

/-- The value of a hexadecimal digit, in either case (00_scope.md R11). -/
def hexValue (c : Char) : Option Nat :=
  if 48 ≤ c.toNat ∧ c.toNat ≤ 57 then some (c.toNat - 48)
  else if 97 ≤ c.toNat ∧ c.toNat ≤ 102 then some (c.toNat - 87)
  else if 65 ≤ c.toNat ∧ c.toNat ≤ 70 then some (c.toNat - 55)
  else none

/-- `unhex(t)`: the byte sequence a string of even length spells, in either case (00_scope.md R11). -/
def unhex : List Char → Option (List Byte)
  | [] => some []
  | [_] => none
  | h :: l :: rest =>
    match hexValue h, hexValue l, unhex rest with
    | some x, some y, some s => some (BitVec.ofNat 8 (x * 16 + y) :: s)
    | _, _, _ => none

end Sys2Proof
end

