-- ==== Sys2Proof/Config.lean ====
section
/-! DEFINITION. What is fixed when the block is built and never changes (10_state.md R23 to R28, 00_scope.md R8): the
sizes of the port, the opcode map and the three enumeration tables, with the conditions the spec sets on them. The block
reads them through a configuration record; the constants the source fixes are in Machine/Constants.lean and the default
contents in Machine/Defaults.lean. -/

namespace Sys2Proof

/-- `OpcodeMap`: the OPCODE byte of each of the twelve kinds of frame (10_state.md R25, 30_encoding.md R67). -/
structure OpcodeMap where
  /-- `OPC_IS_READY` -/
  isReady : Byte
  /-- `OPC_TOGGLE` -/
  toggle : Byte
  /-- `OPC_SET_COLOR` -/
  setColor : Byte
  /-- `OPC_SET_SPEED` -/
  setSpeed : Byte
  /-- `OPC_SET_BRIGHTNESS` -/
  setBrightness : Byte
  /-- `OPC_SET_WHITE` -/
  setWhite : Byte
  /-- `OPC_SET_SEGMENTS` -/
  setSegments : Byte
  /-- `OPC_SET_LEDS` -/
  setLeds : Byte
  /-- `OPC_SET_ANIMATION` -/
  setAnimation : Byte
  /-- `OPC_AUTO_MODE` -/
  autoMode : Byte
  /-- `OPC_GET_NAME` -/
  getName : Byte
  /-- `OPC_GET_SETTINGS` -/
  getSettings : Byte
deriving DecidableEq, Repr

/-- One entry `(name, code)` of an enumeration table (10_state.md R26). -/
structure EnumEntry where
  name : Name
  code : Byte
deriving DecidableEq, Repr

/-- An enumeration table: a finite list of entries, searched by name or by code (10_state.md R26). -/
abbrev EnumTable := List EnumEntry

/-- `EnumTables`: `TABLE_ANIM`, `TABLE_CHIP` and `TABLE_ORDER` (10_state.md R26). -/
structure EnumTables where
  anim : EnumTable
  chip : EnumTable
  order : EnumTable
deriving DecidableEq, Repr

/-- The sizes of the port, "parameters of a port-level realisation": "The abstract model ... needs none of them; a
bit-vector model takes them as arguments" (00_scope.md R8, 92_eei_decisions.md D5). The decoder takes them; no meaning
does. -/
structure Port where
  /-- `VALUE_BITS`: "width of the unsigned `value` operand of the encoder". -/
  valueBits : Nat
  /-- `INT_BITS`: "width of the signed two's-complement operands of the command formatters". -/
  intBits : Nat
  /-- `ENC_WIDTH_MAX`: "largest `width` operand the encoder port can express". -/
  encWidthMax : Nat
  /-- `PAYLOAD_IN_MAX`: "longest payload sequence the BUILD port can express". -/
  payloadInMax : Nat
  /-- `RAW_MAX`: "longest response blob the PARSE port can express". -/
  rawMax : Nat
  /-- `NAME_MAX`: "longest symbolic name, in characters". -/
  nameMax : Nat
deriving DecidableEq, Repr

/-- The whole configuration: every constant that steers the block and is a parameter (10_state.md R23). -/
structure Config where
  port : Port
  opcodes : OpcodeMap
  tables : EnumTables
deriving DecidableEq, Repr

/-- The twelve opcode bytes, in the order of 30_encoding.md R67. -/
def OpcodeMap.bytes (m : OpcodeMap) : List Byte :=
  [m.isReady, m.toggle, m.setColor, m.setSpeed, m.setBrightness, m.setWhite, m.setSegments, m.setLeds,
    m.setAnimation, m.autoMode, m.getName, m.getSettings]

/-- The one constraint on the opcode map: "the twelve values are pairwise different" (30_encoding.md R67). -/
abbrev OpcodeMap.distinct (m : OpcodeMap) : Prop := m.bytes.Nodup

/-- The ASCII bytes of a written name. -/
def ascii (s : String) : Name := s.toList.map fun c => BitVec.ofNat 8 c.toNat

/-- A symbolic name as a table may hold it: "a non-empty string of at most `NAME_MAX` printable ASCII
characters" (10_state.md R26). -/
abbrev Name.symbolic (nameMax : Nat) (n : Name) : Prop :=
  n ≠ [] ∧ n.length ≤ nameMax ∧ ∀ c ∈ n, 0x20 ≤ c.toNat ∧ c.toNat ≤ 0x7e

/-- "In each table no two entries have the same name and no two entries have the same code"
(10_state.md R26). -/
abbrev EnumTable.oneToOne (t : EnumTable) : Prop :=
  (t.map EnumEntry.name).Nodup ∧ (t.map EnumEntry.code).Nodup

/-- What 10_state.md R26 asks of each table: symbolic names, and one-to-one. -/
abbrev EnumTable.admissible (nameMax : Nat) (t : EnumTable) : Prop :=
  EnumTable.oneToOne t ∧ ∀ e ∈ t, Name.symbolic nameMax e.name

/-- "What the source fixes of the tables' contents, and nothing more" (10_state.md R27). -/
abbrev EnumTables.sourceFacts (t : EnumTables) : Prop :=
  ⟨ascii "meteor", 0xcd⟩ ∈ t.anim ∧
  ⟨ascii "GRB", 0x02⟩ ∈ t.order ∧
  ⟨ascii "WS2811", 0x03⟩ ∈ t.chip ∧
  (∀ e ∈ t.anim, e.code ≠ 0x01) ∧
  (∃ e ∈ t.chip, e.name = ascii "APA102")

/-- The orderings of the letters R, G, B (42_enum_tables.md R128). -/
def colourOrders : List Name :=
  [ascii "RGB", ascii "RBG", ascii "GRB", ascii "GBR", ascii "BRG", ascii "BGR"]

/-- The six facts of 42_enum_tables.md R128: the five of 10_state.md R27, and "colour order names are orderings of the
letters R, G, B". No statement about a lookup assumes the sixth, since R27 fixes "nothing more". -/
abbrev EnumTables.contentFacts (t : EnumTables) : Prop :=
  t.sourceFacts ∧ ∀ e ∈ t.order, e.name ∈ colourOrders

/-- Tables that meet 10_state.md R26 and R27, which is what a theorem about names is stated for (R27,
70_reset_and_hazards.md R203). -/
abbrev EnumTables.admissible (nameMax : Nat) (t : EnumTables) : Prop :=
  EnumTable.admissible nameMax t.anim ∧ EnumTable.admissible nameMax t.chip ∧ EnumTable.admissible nameMax t.order ∧
    t.sourceFacts

/-- The tables of a configuration meet 10_state.md R26 and R27, `NAME_MAX` being that of its port (00_scope.md R8). -/
abbrev Config.tablesAdmissible (c : Config) : Prop := c.tables.admissible c.port.nameMax

/-- A configuration of this hardware (70_reset_and_hazards.md R203 and R204). -/
abbrev Config.admissible (c : Config) : Prop := c.opcodes.distinct ∧ c.tablesAdmissible

end Sys2Proof
end

