-- ==== Sys2Proof/Machine/Defaults.lean ====
section
/-! DEFINITION. The default configuration: the port sizes of 00_scope.md R8, the opcode bytes of 30_encoding.md R67 and
the table contents of 42_enum_tables.md R129. The spec marks the opcodes and the tables `[from general knowledge, not in
source]` but the three entries of R128. [UNVERIFIED, unsafe: log entry 1.] -/

namespace Sys2Proof

/-- The default sizes of the port (00_scope.md R8). -/
def defaultPort : Port :=
  { valueBits := 32, intBits := 32, encWidthMax := 4, payloadInMax := 7, rawMax := 32, nameMax := 16 }

/-- The default opcode bytes (30_encoding.md R67, column "default"). -/
def defaultOpcodes : OpcodeMap :=
  { isReady := 0x2f, toggle := 0xaa, setColor := 0x22, setSpeed := 0x03, setBrightness := 0x2a, setWhite := 0x08,
    setSegments := 0x2e, setLeds := 0x2d, setAnimation := 0x2c, autoMode := 0x06, getName := 0x77,
    getSettings := 0x10 }

/-- The default `TABLE_ANIM`, 8 entries (42_enum_tables.md R129). -/
def defaultAnim : EnumTable :=
  [⟨ascii "meteor", 0xcd⟩, ⟨ascii "breathing", 0xce⟩, ⟨ascii "stack", 0xcf⟩, ⟨ascii "flow", 0xd0⟩,
   ⟨ascii "wave", 0xd1⟩, ⟨ascii "flash", 0xd2⟩, ⟨ascii "static", 0xd3⟩, ⟨ascii "catch up", 0xd4⟩]

/-- The default `TABLE_ORDER`, 6 entries (42_enum_tables.md R129). -/
def defaultOrder : EnumTable :=
  [⟨ascii "RGB", 0x00⟩, ⟨ascii "RBG", 0x01⟩, ⟨ascii "GRB", 0x02⟩, ⟨ascii "GBR", 0x03⟩, ⟨ascii "BRG", 0x04⟩,
   ⟨ascii "BGR", 0x05⟩]

/-- The default `TABLE_CHIP`, 27 entries (42_enum_tables.md R129). -/
def defaultChip : EnumTable :=
  [⟨ascii "SM16703", 0x00⟩, ⟨ascii "TM1804", 0x01⟩, ⟨ascii "UCS1903", 0x02⟩, ⟨ascii "WS2811", 0x03⟩,
   ⟨ascii "WS2801", 0x04⟩, ⟨ascii "SK6812", 0x05⟩, ⟨ascii "LPD6803", 0x06⟩, ⟨ascii "LPD8806", 0x07⟩,
   ⟨ascii "APA102", 0x08⟩, ⟨ascii "APA105", 0x09⟩, ⟨ascii "DMX512", 0x0a⟩, ⟨ascii "TM1914", 0x0b⟩,
   ⟨ascii "TM1913", 0x0c⟩, ⟨ascii "P9813", 0x0d⟩, ⟨ascii "INK1003", 0x0e⟩, ⟨ascii "P943S", 0x0f⟩,
   ⟨ascii "P9411", 0x10⟩, ⟨ascii "P9413", 0x11⟩, ⟨ascii "TX1812", 0x12⟩, ⟨ascii "TX1813", 0x13⟩,
   ⟨ascii "GS8206", 0x14⟩, ⟨ascii "GS8208", 0x15⟩, ⟨ascii "SK9822", 0x16⟩, ⟨ascii "TM1814", 0x17⟩,
   ⟨ascii "SK6812_RGBW", 0x18⟩, ⟨ascii "P9414", 0x19⟩, ⟨ascii "P9412", 0x1a⟩]

/-- The default configuration (00_scope.md R6, R7 and R8). -/
def defaultConfig : Config :=
  { port := defaultPort
    opcodes := defaultOpcodes
    tables := { anim := defaultAnim, chip := defaultChip, order := defaultOrder } }

end Sys2Proof
end

