-- ==== Sys2Proof/Syntax.lean ====
section
/-! DEFINITION. The abstract syntax: one constructor for every row of spec/opcode_table.json, the 25 requests
(format `REQ`, 30_encoding.md R66) and the 12 kinds of command frame (format `FRAME6`, 30_encoding.md R69), and
the two kinds of word they are written in. Operands are the abstract model's: natural numbers, integers, byte
lists (00_scope.md R8). -/

namespace Sys2Proof

/-- The instructions. A `FRAME6` row stands for the emission of its frame by the CMD operation that emits it, with the
payload bytes as its operands (the column `emitted_by` of the table). [DESIGN CHOICE, log entry 2.] A query command carries `raw` as an optional operand: absent in its format phase, present in
its completion phase (43_commands.md R140, 10_state.md R30). -/
inductive Instr where
  /-- ENC.MIN, `fn = 0x00` (40_value_encoder.md R91). -/
  | encMin (value : Nat)
  /-- ENC.W, `fn = 0x01` (40_value_encoder.md R90). -/
  | encW (value : Nat) (width : Nat)
  /-- BUILD, `fn = 0x02` (41_frame_codec.md R100). -/
  | build (opcode : Byte) (payload : List Byte)
  /-- PARSE, `fn = 0x03` (41_frame_codec.md R101). -/
  | parse (raw : List Byte)
  /-- N2C.ANIM, `fn = 0x10` (42_enum_tables.md R122). -/
  | n2cAnim (name : Name)
  /-- N2C.CHIP, `fn = 0x11` (42_enum_tables.md R123). -/
  | n2cChip (name : Name)
  /-- N2C.ORDER, `fn = 0x12` (42_enum_tables.md R124). -/
  | n2cOrder (name : Name)
  /-- C2N.ANIM, `fn = 0x14` (42_enum_tables.md R125). -/
  | c2nAnim (code : Byte)
  /-- C2N.CHIP, `fn = 0x15` (42_enum_tables.md R126). -/
  | c2nChip (code : Byte)
  /-- C2N.ORDER, `fn = 0x16` (42_enum_tables.md R127). -/
  | c2nOrder (code : Byte)
  /-- CMD.ISREADY, `fn = 0x40` (43_commands.md R141). -/
  | cmdIsReady (raw : Option (List Byte))
  /-- CMD.SETPOWER, `fn = 0x41` (43_commands.md R142). -/
  | cmdSetPower (on : Bool)
  /-- CMD.SETCOLOR, `fn = 0x42` (43_commands.md R143). -/
  | cmdSetColor (rgb : Int)
  /-- CMD.SETSPEED, `fn = 0x43` (43_commands.md R144). -/
  | cmdSetSpeed (n : Int)
  /-- CMD.SETBRIGHT, `fn = 0x44` (43_commands.md R145). -/
  | cmdSetBright (n : Int)
  /-- CMD.SETWHITE, `fn = 0x45`; `none` is the absent operand (43_commands.md R146, 30_encoding.md R75). -/
  | cmdSetWhite (n : Option Int)
  /-- CMD.SETSEGS, `fn = 0x46`; `none` is the absent operand (43_commands.md R147). -/
  | cmdSetSegs (n : Option Int)
  /-- CMD.SETLEDS, `fn = 0x47`; `none` is the absent operand (43_commands.md R148). -/
  | cmdSetLeds (n : Option Int)
  /-- CMD.SETMONO, `fn = 0x48` (43_commands.md R149). -/
  | cmdSetMono (code : Byte)
  /-- CMD.SETMIXED, `fn = 0x49` (43_commands.md R150). -/
  | cmdSetMixed (index : Int)
  /-- CMD.AUTOMODE, `fn = 0x4a` (43_commands.md R151). -/
  | cmdAutoMode
  /-- CMD.TOGGLE, `fn = 0x4b` (43_commands.md R152). -/
  | cmdToggle
  /-- CMD.GETNAME, `fn = 0x4c` (43_commands.md R153). -/
  | cmdGetName (raw : Option (List Byte))
  /-- CMD.GETRAW, `fn = 0x4d` (43_commands.md R154). -/
  | cmdGetRaw (raw : Option (List Byte))
  /-- CMD.GETSETTINGS, `fn = 0x4e` (43_commands.md R155). -/
  | cmdGetSettings (raw : Option (List Byte))
  /-- F.ISREADY, form P0 (30_encoding.md R69, 43_commands.md R141). -/
  | fIsReady
  /-- F.TOGGLE, form P0 (30_encoding.md R69, 43_commands.md R152). -/
  | fToggle
  /-- F.SETCOLOR, form P3: red, green, blue (30_encoding.md R69, 43_commands.md R143). -/
  | fSetColor (r g b : Byte)
  /-- F.SETSPEED, form P1 (30_encoding.md R69, 43_commands.md R144). -/
  | fSetSpeed (v : Byte)
  /-- F.SETBRIGHT, form P1 (30_encoding.md R69, 43_commands.md R145). -/
  | fSetBright (v : Byte)
  /-- F.SETWHITE, form P1 (30_encoding.md R69, 43_commands.md R146). -/
  | fSetWhite (v : Byte)
  /-- F.SETSEGS, form P2: high byte, low byte (30_encoding.md R69, 43_commands.md R147). -/
  | fSetSegs (h l : Byte)
  /-- F.SETLEDS, form P2: high byte, low byte (30_encoding.md R69, 43_commands.md R148). -/
  | fSetLeds (h l : Byte)
  /-- F.SETANIM, form P1 (30_encoding.md R69, 43_commands.md R149). -/
  | fSetAnim (v : Byte)
  /-- F.AUTOMODE, form P0 (30_encoding.md R69, 43_commands.md R151). -/
  | fAutoMode
  /-- F.GETNAME, form P0 (30_encoding.md R69, 43_commands.md R153). -/
  | fGetName
  /-- F.GETSETTINGS, form P0 (30_encoding.md R69, 43_commands.md R154). -/
  | fGetSettings
deriving DecidableEq, Repr

/-- A word of the opcode table, in either of its formats. Only a request is handed to the block: "The source defines no
operation that parses a command frame, so the block has none" (30_encoding.md R70), and a frame word is a word of the table
that the laws and the tests read. -/
inductive Code where
  /-- The bytes of a request: the `fn` byte, then the operands (30_encoding.md R66). -/
  | request (bytes : List Byte)
  /-- The bytes of a command frame as they stand on the wire (30_encoding.md R60). -/
  | frame (bytes : List Byte)
deriving DecidableEq, Repr

/-- The 25 operations the `fn` byte selects (30_encoding.md R66). -/
inductive Op where
  | encMin | encW | build | parse
  | n2cAnim | n2cChip | n2cOrder | c2nAnim | c2nChip | c2nOrder
  | isReady | setPower | setColor | setSpeed | setBright | setWhite | setSegs | setLeds | setMono | setMixed
  | autoMode | toggle | getName | getRaw | getSettings
deriving DecidableEq, Repr

/-- The 12 kinds of command frame (30_encoding.md R69). -/
inductive FrameKind where
  | isReady | toggle | setColor | setSpeed | setBright | setWhite | setSegs | setLeds | setAnim | autoMode
  | getName | getSettings
deriving DecidableEq, Repr

/-- The four payload forms, by semantic width 0 to 3 (30_encoding.md R63). -/
inductive PayloadForm where
  | p0 | p1 | p2 | p3
deriving DecidableEq, Repr

/-- Why the decoder gives no instruction for a request. -/
inductive DecodeError where
  /-- A request with no `fn` byte. -/
  | noFunction
  /-- A `fn` value outside the table of 30_encoding.md R66 (60_exceptions.md R174). -/
  | illegalFunction (fn : Byte)
  /-- A request whose operands were not supplied whole (10_state.md R30). -/
  | truncated (fn : Byte)
  /-- An operand the port cannot express (00_scope.md R8, 92_eei_decisions.md D5). -/
  | notPresentable (fn : Byte)
deriving DecidableEq, Repr

/-- The decoder's answer to a request. -/
inductive Decoded where
  | ok (i : Instr)
  | bad (e : DecodeError)
deriving DecidableEq, Repr

/-- What the opcode map of 30_encoding.md R69 says of a byte sequence. -/
inductive FrameReading where
  /-- A frame of one of the twelve kinds, as the instruction of its row. -/
  | ok (i : Instr)
  /-- Not a well-formed frame (30_encoding.md R70): "never emitted by any operation" (R71 (d)). -/
  | notAFrame
  /-- A well-formed frame of none of the twelve kinds (30_encoding.md R69 and R71 (b)). -/
  | unknownFrame
deriving DecidableEq, Repr

end Sys2Proof
end

