-- ==== Sys2Proof/Machine/State.lean ====
section
/-! DEFINITION. The state, as plain data. The block "holds no mutable state at all" (10_state.md): its constants,
its two buffers and its response record are here, with the host's requests that wait, the query in progress between
its two phases, and the two things a run is observed to do (70_reset_and_hazards.md R214). -/

namespace Sys2Proof.Machine

/-- A byte buffer as (offset, byte) cells, offsets strictly rising; an offset that is not listed holds no value
(20_memory.md R40; 10_state.md R34: after reset FRAME is invalid and RAW not driven). [DEDUCED, log entry 9.] -/
abbrev Memory := List Host.Cell

/-- `res.status` (60_exceptions.md R170). -/
inductive Status where
  /-- Code 0: the operation ended normally. -/
  | ok
  /-- Code 1 (60_exceptions.md R171). -/
  | rangeError
  /-- Code 2 (60_exceptions.md R172). -/
  | malformedResponse
  /-- Code 3 (60_exceptions.md R173). -/
  | notFound
  /-- Code 4 (60_exceptions.md R174). -/
  | illegalFunction
deriving DecidableEq, Repr

/-- The bits of `res.warn`, three and independent: `UnknownEnumCode` for each enumeration field (10_state.md R22,
60_exceptions.md R175). -/
structure Warn where
  uAnim : Bool
  uOrder : Bool
  uChip : Bool
deriving DecidableEq, Repr

/-- A decoded enumeration byte (41_frame_codec.md R102). -/
inductive EnumVal where
  /-- The table has an entry with that code. -/
  | known (name : Name) (code : Byte)
  /-- The table has none: the raw code. -/
  | raw (code : Byte)
deriving DecidableEq, Repr

/-- A colour: "three separate bytes in the order red, green, blue" (20_memory.md R43). -/
structure Rgb where
  red : Byte
  green : Byte
  blue : Byte
deriving DecidableEq, Repr

/-- The Device Settings record, eleven fields (41_frame_codec.md R101). -/
structure Settings where
  power : Bool
  animation : EnumVal
  speed : Byte
  brightness : Byte
  colorOrder : EnumVal
  ledsPerSegment : Half
  segments : Half
  color : Rgb
  chip : EnumVal
  patterns : Byte
  white : Byte
deriving DecidableEq, Repr

/-- The response record (10_state.md R31). A field that is `none` is invalid: it has no value. -/
structure Response where
  status : Status
  /-- The three bits as they are written, `000` after `raise` (60_exceptions.md R181). The field `res.warn` of the
  response is `Response.warn` (Flags.lean), which has no value after `raise` (10_state.md R31). -/
  warnBits : Warn
  info : Option Int := none
  bytes : Option (List Byte) := none
  frame : Option (List Byte) := none
  expect : Option Bool := none
  rspLen : Option Nat := none
  settings : Option Settings := none
  code : Option Byte := none
  known : Option Bool := none
  name : Option Name := none
  readyByte : Option Byte := none
  nameBytes : Option (List Byte) := none
  rawOut : Option (List Byte) := none
deriving DecidableEq, Repr

/-- One element of the wire trace: `(frame, expect, rsp_len)` (70_reset_and_hazards.md R214). -/
structure WireEntry where
  frame : List Byte
  expect : Bool
  rspLen : Nat
deriving DecidableEq, Repr

/-- The four queries, which have a completion phase (43_commands.md R140). -/
inductive Query where
  | isReady | getName | getRaw | getSettings
deriving DecidableEq, Repr

/-- A query between its two phases: its frame was handed over as element `call` of the wire trace, and the bytes that
answer that frame are awaited (43_commands.md R140, 70_reset_and_hazards.md R207 (d)). [DESIGN CHOICE, log entries 5 and
19.] -/
structure Pending where
  query : Query
  call : Nat
deriving DecidableEq, Repr

/-- The transport's own errors, which the block neither raises nor catches (60_exceptions.md R176). -/
inductive TransportError where
  | connectionError | timeoutError | shortReadError
deriving DecidableEq, Repr

/-- What reaches the block from outside, in order of arrival: the host's requests (10_state.md R30), what the
transport hands back (10_state.md R33, 60_exceptions.md R176), and reset (70_reset_and_hazards.md R200).
[DESIGN CHOICE, log entry 6.] What the transport hands back comes over the connection of one command, since "Each command
uses its own connection" (70_reset_and_hazards.md R207 (d)): `call` says which, as the place in the wire trace of the
frame that is answered. [DESIGN CHOICE, log entry 19.] -/
inductive Event where
  /-- The host issues a request at the port, as bytes (30_encoding.md R66). -/
  | request (bytes : List Byte)
  /-- The host asks for a row of the opcode table by its constructor: "A model may use an inductive type with one
  constructor per row instead and never mention the numbers" (30_encoding.md R66). Its operands are the abstract model's,
  of any size (00_scope.md R8). No frame is handed in: no event carries a frame's bytes. [DESIGN CHOICE, log entries 2
  and 6.] -/
  | term (i : Instr)
  /-- The transport hands back bytes: any sequence, under no law (10_state.md R33). -/
  | rsp (call : Nat) (bytes : List Byte)
  /-- The transport failed (60_exceptions.md R176). -/
  | failed (call : Nat) (why : TransportError)
  /-- Reset (70_reset_and_hazards.md R200 to R202). -/
  | reset
deriving DecidableEq, Repr

/-- The state of the machine. -/
structure State where
  /-- The sizes of the port (00_scope.md R8), `OpcodeMap` and the three tables (10_state.md R23 to R28); no operation
  writes them. -/
  cfg : Config
  /-- What has arrived and is not yet taken (20_memory.md R52: taken in the order issued). -/
  inbox : List Event
  /-- The query whose frame was handed over and whose bytes are awaited (43_commands.md R140, 20_memory.md R58).
  [DESIGN CHOICE, log entry 5.] -/
  query : Option Pending
  /-- The `FRAME` buffer, offsets 0 to 5 (20_memory.md R48). -/
  frame : Memory
  /-- The `RAW` buffer, offsets 0 to `len(RAW) - 1` (20_memory.md R49). -/
  raw : Memory
  /-- The response record; `none` is `res.valid = 0` (10_state.md R31 and R34). -/
  resp : Option Response
  /-- The list of responses, in order (70_reset_and_hazards.md R214). [DESIGN CHOICE, log entry 8.] -/
  responses : List Response
  /-- The wire trace, in order (70_reset_and_hazards.md R214). [DESIGN CHOICE, log entry 8.] -/
  wire : List WireEntry
deriving DecidableEq, Repr

/-- Why the machine stops with a fault. -/
inductive Fault where
  /-- An access to a buffer offset that does not exist. Raised by the reads of `FRAME` and `RAW`; "every rule that
  uses it establishes that first" (00_scope.md R12, 20_memory.md R59), so no instruction reaches it. Safe. -/
  | noSuchOffset
deriving DecidableEq, Repr

/-- Why the machine gives no meaning to what it was handed. -/
inductive Refusal where
  /-- Raised by an arm of `exec` whose instruction has no meaning yet. Safe. -/
  | notModelled (mnemonic : String)
  /-- Raised by `step` on a request with no `fn` byte: a request is "supplied whole" (10_state.md R30). Safe. -/
  | emptyRequest
  /-- Raised by `step` on a request whose operands are cut short (10_state.md R30). Safe. -/
  | truncatedRequest (fn : Byte)
  /-- Raised by `step` on an operand the port cannot express (00_scope.md R8, 92_eei_decisions.md D5). Safe. -/
  | operandNotPresentable (fn : Byte)
deriving DecidableEq, Repr

/-- The machine right after reset (10_state.md R34): the constants as configured, here the defaults; no request
pending, no response present, `FRAME` invalid, `RAW` not driven, the wire trace empty (95_test_vectors.md part 3). -/
def State.reset : State :=
  { cfg := defaultConfig, inbox := [], query := none, frame := [], raw := [], resp := none, responses := [],
    wire := [] }

end Sys2Proof.Machine
end

