-- ==== Sys2Proof/Machine/Flags.lean ====
section
/-! DEFINITION. The flag-like outputs of a response: `res.status` and `res.warn` (10_state.md R22, 60_exceptions.md
R170 and R175). -/

namespace Sys2Proof.Machine

/-- The number of each status (60_exceptions.md R170). -/
def Status.code : Status → Nat
  | .ok => 0
  | .rangeError => 1
  | .malformedResponse => 2
  | .notFound => 3
  | .illegalFunction => 4

/-- `res.warn = 000` (10_state.md R22). -/
def noWarn : Warn := { uAnim := false, uOrder := false, uChip := false }

/-- `res.known` (42_enum_tables.md R125; 41_frame_codec.md R102, "one bit"). -/
def EnumVal.isKnown : EnumVal → Bool
  | .known _ _ => true
  | .raw _ => false

/-- The code, "always valid": both forms keep the byte (41_frame_codec.md R102). -/
def EnumVal.code : EnumVal → Byte
  | .known _ c => c
  | .raw c => c

/-- The name, "valid only when `known = 1`" (41_frame_codec.md R102). -/
def EnumVal.name : EnumVal → Option Name
  | .known n _ => some n
  | .raw _ => none

/-- `warn u_anim`, when the code is in no entry of `TABLE_ANIM` (60_exceptions.md R175). -/
def warnAnim (v : EnumVal) : Warn := { noWarn with uAnim := !v.isKnown }

/-- `warn u_order`, when the code is in no entry of `TABLE_ORDER` (60_exceptions.md R175). -/
def warnOrder (v : EnumVal) : Warn := { noWarn with uOrder := !v.isKnown }

/-- `warn u_chip`, when the code is in no entry of `TABLE_CHIP` (60_exceptions.md R175). -/
def warnChip (v : EnumVal) : Warn := { noWarn with uChip := !v.isKnown }

/-- The warnings of a parsed response: the three bits "are set independently" (60_exceptions.md R180). -/
def settingsWarn (s : Settings) : Warn :=
  { uAnim := !s.animation.isKnown, uOrder := !s.colorOrder.isKnown, uChip := !s.chip.isKnown }

/-- `res.warn` of a response: "After `raise`, every field but `status` and `info` is invalid" (10_state.md R31,
92_eei_decisions.md D23), so an error response has no `warn`, whatever its bits. -/
def Response.warn (r : Response) : Option Warn := if r.status = .ok then some r.warnBits else none

/-- A response of an operation that ends normally, before its results are written: `res.status <- OK`,
`res.warn <- 000`, every other field invalid (10_state.md R22 and R31). -/
def okResponse : Response := { status := .ok, warnBits := noWarn }

/-- The response of `raise E(info)`: `res.status <- E`, `res.info <- info`, `res.warn <- 000`, every other field
invalid (60_exceptions.md R181). The three bits are written and the field is invalid, as 10_state.md R31 has it.
[DEDUCED, log entry 10.] -/
def errorResponse (e : Status) (info : Option Int) : Response := { status := e, warnBits := noWarn, info := info }

end Sys2Proof.Machine
end

