-- ==== Sys2Proof/Machine/Ops.lean ====
section
/-! DEFINITION. The named operations over the buffers and the response: `MemRead` and `MemWrite` (00_scope.md R12),
the start of an operation, the end of one, `raise` (60_exceptions.md R181, what this hardware has for taking an
exception; "there is no return operation", R183), reset (70_reset_and_hazards.md R200 to R202), and the frame:
driving `FRAME` (41_frame_codec.md R100) and handing it to the transport (43_commands.md R140). -/

namespace Sys2Proof.Machine

/-- The three outcomes of an instruction. -/
abbrev Result := Host.Outcome State Fault Refusal

/-! ### Buffers -/

/-- The canonical form of a buffer: offsets strictly rising. An offset that is not listed holds no value, so no
entry can equal what it reads as. -/
def Memory.wf : Memory → Bool
  | [] => true
  | [_] => true
  | x :: y :: rest => x.1 < y.1 && Memory.wf (y :: rest)

/-- The byte at an offset, if the buffer holds one there. -/
def Memory.byteAt : Memory → Nat → Option Byte
  | [], _ => none
  | (k, b) :: rest, a => if k = a then some b else Memory.byteAt rest a

/-- Write one byte, keeping the canonical form. -/
def Memory.writeByte : Memory → Nat → Byte → Memory
  | [], a, b => [(a, b)]
  | (k, x) :: rest, a, b =>
    if a < k then (a, b) :: (k, x) :: rest
    else if a = k then (a, b) :: rest
    else (k, x) :: Memory.writeByte rest a b

/-- Write bytes from an offset up. -/
def Memory.writeBytes (m : Memory) (off : Nat) : List Byte → Memory
  | [] => m
  | b :: rest => Memory.writeBytes (Memory.writeByte m off b) (off + 1) rest

/-- The `n` bytes from an offset up, if the buffer holds them all (`A[off .. off+n-1]`, 00_scope.md R12). -/
def Memory.bytesAt (m : Memory) (off : Nat) : Nat → Option (List Byte)
  | 0 => some []
  | n + 1 =>
    match Memory.byteAt m off, Memory.bytesAt m (off + 1) n with
    | some b, some rest => some (b :: rest)
    | _, _ => none

/-- `MemRead(A+off, n)`: `be(A[off .. off+n-1])`, zero-extended (00_scope.md R12, 20_memory.md R59). -/
def Memory.read (m : Memory) (off n : Nat) : Option Nat := (Memory.bytesAt m off n).map be

/-- `MemWrite(A+off, n, v)`: `A[off .. off+n-1] <- bytes_be(v, n)` (00_scope.md R12). -/
def Memory.write (m : Memory) (off n v : Nat) : Memory := Memory.writeBytes m off (bytesBE v n)

/-- A buffer that holds a byte sequence from offset 0 (10_state.md R29). -/
def Memory.ofBytes (s : List Byte) : Memory := Memory.writeBytes [] 0 s

/-- Go on with what a buffer holds; the fault is the access to an offset that does not exist. -/
def fetched {α : Type} (o : Option α) (k : α → Result) : Result :=
  match o with
  | some x => k x
  | none => .fault .noSuchOffset

/-! ### The start and the end of an operation -/

/-- The start of an operation: neither buffer is kept from the operation before, and `RAW` holds the request's
`raw` (10_state.md R29). -/
def State.start (s : State) (raw : List Byte) : State := { s with frame := [], raw := Memory.ofBytes raw }

/-- The end of an operation: its response is "produced whole" (10_state.md R31). -/
def State.respond (s : State) (r : Response) : State := { s with resp := some r, responses := s.responses ++ [r] }

/-- `raise E(info)`: the operation ends, only `status` and `info` are valid, the warning bits are 000, `FRAME` is not driven,
nothing is handed to the transport, no state is saved and no mode changes (60_exceptions.md R181). -/
def State.raise (s : State) (e : Status) (info : Option Int) : State :=
  { s with frame := [] }.respond (errorResponse e info)

/-- Reset: no response is present, `FRAME` is not driven, a query between its phases is abandoned; the constants
stay, nothing is sent (70_reset_and_hazards.md R200 to R202). [DEDUCED, log entry 7.] -/
def State.doReset (s : State) : State := { s with query := none, frame := [], raw := [], resp := none }

/-- The query that awaits the answer to element `call` of the wire trace, if one does. -/
def State.awaiting (s : State) (call : Nat) : Option Query :=
  match s.query with
  | some p => if p.call = call then some p.query else none
  | none => none

/-! ### Frames -/

/-- The response length of each query (43_commands.md R158). -/
def Query.rspLen : Query → Nat
  | .isReady => readyLen
  | .getName => nameLen
  | .getRaw => settingsLen
  | .getSettings => settingsLen

/-- `res.rsp_len`: a command that is no query reads nothing (43_commands.md R158). -/
def rspLenOf : Option Query → Nat
  | none => 0
  | some q => q.rspLen

/-- The four writes of BUILD to `FRAME`: HEAD, PAYLOAD, OPCODE, TAIL (41_frame_codec.md R100). -/
def driveFrame (m : Memory) (opcode : Byte) (payload : List Byte) : Memory :=
  let m := Memory.write m 0 1 head.toNat
  let m := Memory.write m 1 payloadLen (be (pad3 payload))
  let m := Memory.write m 4 1 opcode.toNat
  Memory.write m 5 1 tail.toNat

/-- BUILD up to its result: the length check, then `FRAME` driven and read whole (41_frame_codec.md R100). -/
def withFrame (opcode : Byte) (payload : List Byte) (s : State) (k : List Byte → State → Result) : Result :=
  if payload.length > payloadLen then .next (s.raise .rangeError (some payload.length))
  else
    let t := { s with frame := driveFrame s.frame opcode payload }
    fetched (Memory.bytesAt t.frame 0 frameLen) fun f => k f t

/-- The response of a format phase: `res.frame`, `res.expect`, `res.rsp_len` (43_commands.md R140 (5)). -/
def frameResponse (f : List Byte) (q : Option Query) : Response :=
  { okResponse with frame := some f, expect := some q.isSome, rspLen := some (rspLenOf q) }

/-- The hand-over of a frame to the transport: one element of the wire trace; a query now awaits the bytes that answer
that element (43_commands.md R140, 60_exceptions.md R192, 70_reset_and_hazards.md R214 and R207 (d)). -/
def State.handOver (s : State) (f : List Byte) (q : Option Query) : State :=
  { s with
    wire := s.wire ++ [{ frame := f, expect := q.isSome, rspLen := rspLenOf q }]
    query := q.map fun q => { query := q, call := s.wire.length } }

/-- Steps (4) and (5) of a format phase: BUILD the frame, output it, and hand it over (43_commands.md R140). -/
def emit (opcode : Byte) (payload : List Byte) (q : Option Query) (s : State) : Result :=
  withFrame opcode payload s fun f t => .next ((t.respond (frameResponse f q)).handOver f q)

end Sys2Proof.Machine
end

