-- ==== Sys2Proof/Machine/Operands.lean ====
section
/-! DEFINITION. The operand forms: the optional operand and its default, the range check, the encoder that makes the
payload, and the response bytes of a completion phase (43_commands.md R140, R156, R159 and R160). -/

namespace Sys2Proof.Machine

/-- "take the operand, or its default when it is optional and absent" (43_commands.md R140 (1), R160). -/
def orDefault (n : Option Int) (d : Int) : Int :=
  match n with
  | some v => v
  | none => d

/-- The range check: outside `[lo, hi]` the operation raises `RangeError(info = the operand)`
(43_commands.md R159). -/
def withRange (lo hi n : Int) (s : State) (k : State → Result) : Result :=
  if n < lo ∨ hi < n then .next (s.raise .rangeError (some n)) else k s

/-- `encode(value, width)`: `width` bytes, or `none` where the value does not fit (40_value_encoder.md R90). -/
def encodeValue (value width : Nat) : Option (List Byte) :=
  if 256 ^ width ≤ value then none else some (bytesBE value width)

/-- ENC.W inside an operation: `RangeError(info = value)` where the value does not fit (40_value_encoder.md R90). -/
def withEncoded (value width : Nat) (s : State) (k : List Byte → State → Result) : Result :=
  match encodeValue value width with
  | some p => k p s
  | none => .next (s.raise .rangeError (some value))

/-- A value-carrying command: range check, ENC.W at the semantic width, BUILD with the opcode (30_encoding.md R74 (d),
43_commands.md R140). The value is the operand less `bias`, taken "only after the check" (43_commands.md R150). -/
def valueCommand (lo hi n bias : Int) (width : Nat) (opcode : Byte) (s : State) : Result :=
  withRange lo hi n (s.start []) fun s1 => withEncoded (n - bias).toNat width s1 fun p s2 => emit opcode p none s2

/-- A fixed-frame command: `BUILD opcode, []` (30_encoding.md R74 (e)). -/
def fixedCommand (opcode : Byte) (q : Option Query) (s : State) : Result := emit opcode [] q (s.start [])

/-- A completion phase: `RAW` holds the bytes handed over, the query is no longer in progress, and fewer bytes than
the response length raise `MalformedResponseError(info = len(req.raw))` (43_commands.md R156). A completion phase runs
also with no query in progress (70_reset_and_hazards.md R204). [DEDUCED, log entry 17.] -/
def withResponse (q : Query) (raw : List Byte) (s : State) (k : State → Result) : Result :=
  let t := { s.start raw with query := none }
  if raw.length < q.rspLen then .next (t.raise .malformedResponse (some raw.length)) else k t

end Sys2Proof.Machine
end

