-- ==== Sys2Proof/Machine/Encoder.lean ====
section
/-! DEFINITION. The Value Encoder: ENC.MIN and ENC.W (40_value_encoder.md). -/

namespace Sys2Proof.Machine

/-- ENC.MIN: the fewest whole bytes that hold the value, at least one; "it never fails" (40_value_encoder.md R91). -/
def execEncMin (value : Nat) (s : State) : Result :=
  .next ((s.start []).respond { okResponse with bytes := some (bytesBE value (minWidth value)) })

/-- ENC.W: exactly `width` bytes, or `RangeError` (40_value_encoder.md R90). -/
def execEncW (value width : Nat) (s : State) : Result :=
  withEncoded value width (s.start []) fun p t => .next (t.respond { okResponse with bytes := some p })

end Sys2Proof.Machine
end

