-- ==== Sys2Proof/Machine/Tables.lean ====
section
/-! DEFINITION. The Enumeration Tables: the two searches and the six lookups (42_enum_tables.md). -/

namespace Sys2Proof.Machine

/-- `lookup_fwd(T, name)`: the code of the entry with exactly that name (42_enum_tables.md R120). -/
def lookupFwd (t : EnumTable) (name : Name) : Option Byte := (t.find? fun e => e.name == name).map EnumEntry.code

/-- `lookup_rev(T, code)`: the name of the entry with exactly that code (42_enum_tables.md R121). -/
def lookupRev (t : EnumTable) (code : Byte) : Option Name := (t.find? fun e => e.code == code).map EnumEntry.name

/-- `REV(T)`: the pairs `(code, name)` with `(name, code)` in `T` (10_state.md R28). -/
def reverseTable (t : EnumTable) : List (Byte × Name) := t.map fun e => (e.code, e.name)

/-- `decode_enum(T, c, flag)`: the name when the table has the code, the raw code when it has none
(41_frame_codec.md R102). The warning flag is `EnumVal.isKnown` of the result (Flags.lean). -/
def decodeEnum (t : EnumTable) (c : Byte) : EnumVal :=
  match lookupRev t c with
  | some n => .known n c
  | none => .raw c

/-- A forward lookup: `res.code`, or `NotFound` with no `info` (42_enum_tables.md R122). -/
def nameToCode (t : EnumTable) (name : Name) (s : State) : Result :=
  match lookupFwd t name with
  | some c => .next ((s.start []).respond { okResponse with code := some c })
  | none => .next ((s.start []).raise .notFound none)

/-- A reverse lookup: `res.code` always, `res.known`, `res.name` only when known; it never fails
(42_enum_tables.md R125). -/
def codeToName (v : EnumVal) (w : Warn) (s : State) : Result :=
  .next ((s.start []).respond
    { okResponse with warnBits := w, code := some v.code, known := some v.isKnown, name := v.name })

/-- N2C.ANIM (42_enum_tables.md R122). -/
def execN2cAnim (name : Name) (s : State) : Result := nameToCode s.cfg.tables.anim name s

/-- N2C.CHIP (42_enum_tables.md R123). -/
def execN2cChip (name : Name) (s : State) : Result := nameToCode s.cfg.tables.chip name s

/-- N2C.ORDER (42_enum_tables.md R124). -/
def execN2cOrder (name : Name) (s : State) : Result := nameToCode s.cfg.tables.order name s

/-- C2N.ANIM (42_enum_tables.md R125). -/
def execC2nAnim (code : Byte) (s : State) : Result :=
  let v := decodeEnum s.cfg.tables.anim code
  codeToName v (warnAnim v) s

/-- C2N.CHIP (42_enum_tables.md R126). -/
def execC2nChip (code : Byte) (s : State) : Result :=
  let v := decodeEnum s.cfg.tables.chip code
  codeToName v (warnChip v) s

/-- C2N.ORDER (42_enum_tables.md R127). -/
def execC2nOrder (code : Byte) (s : State) : Result :=
  let v := decodeEnum s.cfg.tables.order code
  codeToName v (warnOrder v) s

end Sys2Proof.Machine
end

