-- ==== Sys2Proof/Machine/Codec.lean ====
section
/-! DEFINITION. The Frame Codec: BUILD and PARSE (41_frame_codec.md), and the renderings of its record (R105). -/

namespace Sys2Proof.Machine

/-- BUILD: the frame goes to the host, not to the transport (41_frame_codec.md R100, 70_reset_and_hazards.md R214). -/
def execBuild (opcode : Byte) (payload : List Byte) (s : State) : Result :=
  withFrame opcode payload (s.start []) fun f t => .next (t.respond { okResponse with frame := some f })

/-- The eleven reads of PARSE, at the fixed offsets of 20_memory.md R49 (41_frame_codec.md R101). -/
def parseSettings (t : EnumTables) (raw : Memory) : Option Settings := do
  let power ← Memory.read raw 1 1
  let animation ← Memory.read raw 2 1
  let speed ← Memory.read raw 3 1
  let brightness ← Memory.read raw 4 1
  let colorOrder ← Memory.read raw 5 1
  let leds ← Memory.read raw 6 2
  let segments ← Memory.read raw 8 2
  let red ← Memory.byteAt raw 10
  let green ← Memory.byteAt raw 11
  let blue ← Memory.byteAt raw 12
  let chip ← Memory.read raw 13 1
  let patterns ← Memory.read raw 14 1
  let white ← Memory.read raw 15 1
  return {
    power := power != 0
    animation := decodeEnum t.anim (BitVec.ofNat 8 animation)
    speed := BitVec.ofNat 8 speed
    brightness := BitVec.ofNat 8 brightness
    colorOrder := decodeEnum t.order (BitVec.ofNat 8 colorOrder)
    ledsPerSegment := BitVec.ofNat 16 leds
    segments := BitVec.ofNat 16 segments
    color := { red := red, green := green, blue := blue }
    chip := decodeEnum t.chip (BitVec.ofNat 8 chip)
    patterns := BitVec.ofNat 8 patterns
    white := BitVec.ofNat 8 white }

/-- PARSE once `RAW` is known to be long enough: the record and its warnings (41_frame_codec.md R101). -/
def parseRaw (s : State) : Result :=
  fetched (parseSettings s.cfg.tables s.raw) fun x =>
    .next (s.respond { okResponse with warnBits := settingsWarn x, settings := some x })

/-- PARSE: `MalformedResponseError(info = len(RAW))` below 17 bytes, checked before any field is read
(41_frame_codec.md R101, 60_exceptions.md R179). -/
def execParse (raw : List Byte) (s : State) : Result :=
  let t := s.start raw
  if raw.length < settingsLen then .next (t.raise .malformedResponse (some raw.length)) else parseRaw t

/-! ### Renderings, not part of the block's result (41_frame_codec.md R105) -/

/-- The colour as six upper-case hexadecimal digits, red first. -/
def renderColor (c : Rgb) : List Char := hexUc [c.red, c.green, c.blue]

/-- A text in double quotes. -/
def quoted (t : List Char) : List Char := Char.ofNat 34 :: t ++ [Char.ofNat 34]

/-- A known value "prints as the quoted name"; how a raw code is shown is the presentation layer's "own business"
(41_frame_codec.md R102), so it has no rendering here. [DESIGN CHOICE, log entry 18.] -/
def renderEnum : EnumVal → Option (List Char)
  | .known n _ => some (quoted (n.map fun c => Char.ofNat c.toNat))
  | .raw _ => none

/-- The record as the source's worked example prints it. -/
def renderSettings (s : Settings) : Option (List Char) := do
  let animation ← renderEnum s.animation
  let order ← renderEnum s.colorOrder
  let chip ← renderEnum s.chip
  return [Char.ofNat 123] ++ "power: ".toList ++ (if s.power then "true" else "false").toList ++
    ", animation: ".toList ++ animation ++ ", speed: ".toList ++ Nat.toDigits 10 s.speed.toNat ++
    ", brightness: ".toList ++ Nat.toDigits 10 s.brightness.toNat ++ ", colorOrder: ".toList ++ order ++
    ", ledsPerSegment: ".toList ++ Nat.toDigits 10 s.ledsPerSegment.toNat ++ ", segments: ".toList ++
    Nat.toDigits 10 s.segments.toNat ++ ", color: ".toList ++ quoted (renderColor s.color) ++ ", chip: ".toList ++
    chip ++ ", patterns: ".toList ++ Nat.toDigits 10 s.patterns.toNat ++ ", white: ".toList ++
    Nat.toDigits 10 s.white.toNat ++ [Char.ofNat 125]

end Sys2Proof.Machine
end

