-- ==== Sys2Proof/Machine/Commands.lean ====
section
/-! DEFINITION. The fifteen command formatters (43_commands.md). A query without `raw` is its format phase, with `raw`
its completion phase (R140). -/

namespace Sys2Proof.Machine

/-- CMD.ISREADY (43_commands.md R141). -/
def execCmdIsReady (raw : Option (List Byte)) (s : State) : Result :=
  match raw with
  | none => fixedCommand s.cfg.opcodes.isReady (some .isReady) s
  | some bytes =>
    withResponse .isReady bytes s fun t =>
      fetched (Memory.byteAt t.raw 0) fun b => .next (t.respond { okResponse with readyByte := some b })

/-- How a readiness byte is read as a boolean: `ready = (ready_byte != 0)` (43_commands.md R141). -/
def readyAsBool (b : Byte) : Bool := b != 0

/-- CMD.SETPOWER: the toggle frame, whatever the operand (43_commands.md R142). -/
def execCmdSetPower (_on : Bool) (s : State) : Result := fixedCommand s.cfg.opcodes.toggle none s

/-- CMD.SETCOLOR (43_commands.md R143). -/
def execCmdSetColor (rgb : Int) (s : State) : Result := valueCommand 0 rgbMax rgb 0 3 s.cfg.opcodes.setColor s

/-- CMD.SETSPEED, in the standard 6-byte shape (43_commands.md R144, 30_encoding.md R68). -/
def execCmdSetSpeed (n : Int) (s : State) : Result := valueCommand 0 byteMax n 0 1 s.cfg.opcodes.setSpeed s

/-- CMD.SETBRIGHT (43_commands.md R145). -/
def execCmdSetBright (n : Int) (s : State) : Result := valueCommand 0 byteMax n 0 1 s.cfg.opcodes.setBrightness s

/-- CMD.SETWHITE, default 80 (43_commands.md R146). -/
def execCmdSetWhite (n : Option Int) (s : State) : Result :=
  valueCommand 0 byteMax (orDefault n defaultWhite) 0 1 s.cfg.opcodes.setWhite s

/-- CMD.SETSEGS, default 1 (43_commands.md R147). -/
def execCmdSetSegs (n : Option Int) (s : State) : Result :=
  valueCommand 0 wordMax (orDefault n defaultSegments) 0 2 s.cfg.opcodes.setSegments s

/-- CMD.SETLEDS, default 154 (43_commands.md R148). -/
def execCmdSetLeds (n : Option Int) (s : State) : Result :=
  valueCommand 0 wordMax (orDefault n defaultLeds) 0 2 s.cfg.opcodes.setLeds s

/-- CMD.SETMONO: any byte, "not checked against `TABLE_ANIM`" (43_commands.md R149). -/
def execCmdSetMono (code : Byte) (s : State) : Result := emit s.cfg.opcodes.setAnimation [code] none (s.start [])

/-- CMD.SETMIXED: the index 1 to 180, sent as `index - 1` (43_commands.md R150). -/
def execCmdSetMixed (index : Int) (s : State) : Result :=
  valueCommand mixedMin mixedMax index 1 1 s.cfg.opcodes.setAnimation s

/-- CMD.AUTOMODE (43_commands.md R151). -/
def execCmdAutoMode (s : State) : Result := fixedCommand s.cfg.opcodes.autoMode none s

/-- CMD.TOGGLE (43_commands.md R152). -/
def execCmdToggle (s : State) : Result := fixedCommand s.cfg.opcodes.toggle none s

/-- CMD.GETNAME (43_commands.md R153). -/
def execCmdGetName (raw : Option (List Byte)) (s : State) : Result :=
  match raw with
  | none => fixedCommand s.cfg.opcodes.getName (some .getName) s
  | some bytes =>
    withResponse .getName bytes s fun t =>
      fetched (Memory.bytesAt t.raw 0 nameLen) fun b => .next (t.respond { okResponse with nameBytes := some b })

/-- CMD.GETRAW (43_commands.md R154). -/
def execCmdGetRaw (raw : Option (List Byte)) (s : State) : Result :=
  match raw with
  | none => fixedCommand s.cfg.opcodes.getSettings (some .getRaw) s
  | some bytes =>
    withResponse .getRaw bytes s fun t =>
      fetched (Memory.bytesAt t.raw 0 settingsLen) fun b => .next (t.respond { okResponse with rawOut := some b })

/-- CMD.GETSETTINGS: CMD.GETRAW's frame, and PARSE of the bytes (43_commands.md R155). -/
def execCmdGetSettings (raw : Option (List Byte)) (s : State) : Result :=
  match raw with
  | none => fixedCommand s.cfg.opcodes.getSettings (some .getSettings) s
  | some bytes => withResponse .getSettings bytes s parseRaw

/-- `POWER.TO target`: "a host macro, not an operation of the block": what the host issues after it has read the
settings (30_encoding.md R74 (c), 70_reset_and_hazards.md R209). -/
def powerTo (target : Bool) (read : Settings) : List Instr := if read.power = target then [] else [.cmdToggle]

end Sys2Proof.Machine
end

