-- ==== Sys2Proof/Machine/Frames.lean ====
section
/-! DEFINITION. The twelve kinds of command frame, the `FRAME6` rows of spec/opcode_table.json. Each row names the rule of
the CMD operation that emits it, and its meaning is that emission (43_commands.md R140 (4) and (5)): the frame is built and
handed to the transport whole (60_exceptions.md R192, 70_reset_and_hazards.md R207 (a)). A frame is an output here and
never an input: the operands are the payload bytes the operation encodes, so no range check is left to make and no frame is
parsed (30_encoding.md R70). [DESIGN CHOICE, log entry 2.] -/

namespace Sys2Proof.Machine

/-- F.ISREADY: the emission by CMD.ISREADY (43_commands.md R141). -/
def execFIsReady (s : State) : Result := emit s.cfg.opcodes.isReady [] (some .isReady) (s.start [])

/-- F.TOGGLE: the emission by CMD.TOGGLE (43_commands.md R152). -/
def execFToggle (s : State) : Result := emit s.cfg.opcodes.toggle [] none (s.start [])

/-- F.SETCOLOR: the emission by CMD.SETCOLOR (43_commands.md R143). -/
def execFSetColor (r g b : Byte) (s : State) : Result := emit s.cfg.opcodes.setColor [r, g, b] none (s.start [])

/-- F.SETSPEED: the emission by CMD.SETSPEED (43_commands.md R144). -/
def execFSetSpeed (v : Byte) (s : State) : Result := emit s.cfg.opcodes.setSpeed [v] none (s.start [])

/-- F.SETBRIGHT: the emission by CMD.SETBRIGHT (43_commands.md R145). -/
def execFSetBright (v : Byte) (s : State) : Result := emit s.cfg.opcodes.setBrightness [v] none (s.start [])

/-- F.SETWHITE: the emission by CMD.SETWHITE (43_commands.md R146). -/
def execFSetWhite (v : Byte) (s : State) : Result := emit s.cfg.opcodes.setWhite [v] none (s.start [])

/-- F.SETSEGS: the emission by CMD.SETSEGS (43_commands.md R147). -/
def execFSetSegs (h l : Byte) (s : State) : Result := emit s.cfg.opcodes.setSegments [h, l] none (s.start [])

/-- F.SETLEDS: the emission by CMD.SETLEDS (43_commands.md R148). -/
def execFSetLeds (h l : Byte) (s : State) : Result := emit s.cfg.opcodes.setLeds [h, l] none (s.start [])

/-- F.SETANIM: the emission by CMD.SETMONO (43_commands.md R149). -/
def execFSetAnim (v : Byte) (s : State) : Result := emit s.cfg.opcodes.setAnimation [v] none (s.start [])

/-- F.AUTOMODE: the emission by CMD.AUTOMODE (43_commands.md R151). -/
def execFAutoMode (s : State) : Result := emit s.cfg.opcodes.autoMode [] none (s.start [])

/-- F.GETNAME: the emission by CMD.GETNAME (43_commands.md R153). -/
def execFGetName (s : State) : Result := emit s.cfg.opcodes.getName [] (some .getName) (s.start [])

/-- F.GETSETTINGS: the emission by CMD.GETRAW, the rule its row names (43_commands.md R154). -/
def execFGetSettings (s : State) : Result := emit s.cfg.opcodes.getSettings [] (some .getRaw) (s.start [])

end Sys2Proof.Machine
end

