-- ==== Sys2Proof/Machine/Dispatch.lean ====
section
/-! DEFINITION. One arm per instruction: a direct call of its meaning. -/

namespace Sys2Proof.Machine

def exec (i : Instr) (s : State) : Host.Outcome State Fault Refusal :=
  match i with
  | .encMin value => Sys2Proof.Machine.execEncMin value s
  | .encW value width => Sys2Proof.Machine.execEncW value width s
  | .build opcode payload => Sys2Proof.Machine.execBuild opcode payload s
  | .parse raw => Sys2Proof.Machine.execParse raw s
  | .n2cAnim name => Sys2Proof.Machine.execN2cAnim name s
  | .n2cChip name => Sys2Proof.Machine.execN2cChip name s
  | .n2cOrder name => Sys2Proof.Machine.execN2cOrder name s
  | .c2nAnim code => Sys2Proof.Machine.execC2nAnim code s
  | .c2nChip code => Sys2Proof.Machine.execC2nChip code s
  | .c2nOrder code => Sys2Proof.Machine.execC2nOrder code s
  | .cmdIsReady raw => Sys2Proof.Machine.execCmdIsReady raw s
  | .cmdSetPower on => Sys2Proof.Machine.execCmdSetPower on s
  | .cmdSetColor rgb => Sys2Proof.Machine.execCmdSetColor rgb s
  | .cmdSetSpeed n => Sys2Proof.Machine.execCmdSetSpeed n s
  | .cmdSetBright n => Sys2Proof.Machine.execCmdSetBright n s
  | .cmdSetWhite n => Sys2Proof.Machine.execCmdSetWhite n s
  | .cmdSetSegs n => Sys2Proof.Machine.execCmdSetSegs n s
  | .cmdSetLeds n => Sys2Proof.Machine.execCmdSetLeds n s
  | .cmdSetMono code => Sys2Proof.Machine.execCmdSetMono code s
  | .cmdSetMixed index => Sys2Proof.Machine.execCmdSetMixed index s
  | .cmdAutoMode => Sys2Proof.Machine.execCmdAutoMode s
  | .cmdToggle => Sys2Proof.Machine.execCmdToggle s
  | .cmdGetName raw => Sys2Proof.Machine.execCmdGetName raw s
  | .cmdGetRaw raw => Sys2Proof.Machine.execCmdGetRaw raw s
  | .cmdGetSettings raw => Sys2Proof.Machine.execCmdGetSettings raw s
  | .fIsReady => Sys2Proof.Machine.execFIsReady s
  | .fToggle => Sys2Proof.Machine.execFToggle s
  | .fSetColor r g b => Sys2Proof.Machine.execFSetColor r g b s
  | .fSetSpeed v => Sys2Proof.Machine.execFSetSpeed v s
  | .fSetBright v => Sys2Proof.Machine.execFSetBright v s
  | .fSetWhite v => Sys2Proof.Machine.execFSetWhite v s
  | .fSetSegs h l => Sys2Proof.Machine.execFSetSegs h l s
  | .fSetLeds h l => Sys2Proof.Machine.execFSetLeds h l s
  | .fSetAnim v => Sys2Proof.Machine.execFSetAnim v s
  | .fAutoMode => Sys2Proof.Machine.execFAutoMode s
  | .fGetName => Sys2Proof.Machine.execFGetName s
  | .fGetSettings => Sys2Proof.Machine.execFGetSettings s

end Sys2Proof.Machine
end

