-- ==== Sys2Proof/Machine/Port.lean ====
section
/-! DEFINITION. How many bytes each operand takes at a port of given sizes (00_scope.md R8). The sizes are the spec's
parameters; that an operand is laid out in whole bytes is the packing of log entry 3. [DESIGN CHOICE.] -/

namespace Sys2Proof

/-- The bytes that hold so many bits. -/
def bytesFor (bits : Nat) : Nat := (bits + 7) / 8

/-- The bytes of a `value` operand of `VALUE_BITS` bits (00_scope.md R8). -/
def Port.valueBytes (p : Port) : Nat := bytesFor p.valueBits

/-- The bytes of a signed operand of `INT_BITS` bits (00_scope.md R8). -/
def Port.intBytes (p : Port) : Nat := bytesFor p.intBits

/-- The bytes of a length, or a width, that is at most `most`. -/
def lengthBytes (most : Nat) : Nat := minWidth most

/-- The longest `name` operand the packing carries: the most that fits in the fewest length bytes with which a name
over `NAME_MAX` is expressed too: it is in no table and raises `NotFound` (42_enum_tables.md R122; log entry 13). -/
def Port.nameOperandMax (p : Port) : Nat := 256 ^ lengthBytes (p.nameMax + 1) - 1

/-- `sext`: a two's complement number of so many bits, read into `Z` (40_value_encoder.md R94). -/
def sext (bits v : Nat) : Int := if 2 * v < 2 ^ bits then (v : Int) else (v : Int) - 2 ^ bits

/-- The two's complement bits of an integer, as a number below `2 ^ bits` (00_scope.md R8, `INT_BITS`). -/
def twosComplement (bits : Nat) (v : Int) : Nat := (v % 2 ^ bits).toNat

end Sys2Proof
end

