-- ==== Sys2Proof/WellFormed.lean ====
section
/-! DEFINITION. Which instructions a port of given sizes can present: the operand bounds of 00_scope.md R8, 10_state.md
R29 and R30. The meanings do not depend on them ("the abstract functions are unbounded", 92_eei_decisions.md D5). -/

namespace Sys2Proof

/-- An unsigned `value` of `VALUE_BITS` bits (00_scope.md R8). -/
def valueFits (p : Port) (v : Nat) : Bool := v < 2 ^ p.valueBits

/-- A signed operand of `INT_BITS` bits, two's complement (00_scope.md R8, 40_value_encoder.md R94). -/
def intFits (p : Port) (v : Int) : Bool := -2 ^ p.intBits ≤ 2 * v && 2 * v < 2 ^ p.intBits

/-- An optional signed operand (30_encoding.md R75). -/
def optIntFits (p : Port) : Option Int → Bool
  | none => true
  | some v => intFits p v

/-- A response blob of at most `RAW_MAX` bytes (10_state.md R29). -/
def rawFits (p : Port) (raw : List Byte) : Bool := raw.length ≤ p.rawMax

/-- The optional `raw` of a query: absent in the format phase (43_commands.md R140). -/
def optRawFits (p : Port) : Option (List Byte) → Bool
  | none => true
  | some raw => rawFits p raw

/-- A name the request packing can carry; longer names than `NAME_MAX` can be presented and are in no table
(42_enum_tables.md R122). -/
def nameFits (p : Port) (n : Name) : Bool := n.length ≤ p.nameOperandMax

/-- A well-formed instruction: one whose operands the port can present (00_scope.md R8). -/
def wellFormed (p : Port) : Instr → Bool
  | .encMin value => valueFits p value
  | .encW value width => valueFits p value && width ≤ p.encWidthMax
  | .build _ payload => payload.length ≤ p.payloadInMax
  | .parse raw => rawFits p raw
  | .n2cAnim name => nameFits p name
  | .n2cChip name => nameFits p name
  | .n2cOrder name => nameFits p name
  | .c2nAnim _ => true
  | .c2nChip _ => true
  | .c2nOrder _ => true
  | .cmdIsReady raw => optRawFits p raw
  | .cmdSetPower _ => true
  | .cmdSetColor rgb => intFits p rgb
  | .cmdSetSpeed n => intFits p n
  | .cmdSetBright n => intFits p n
  | .cmdSetWhite n => optIntFits p n
  | .cmdSetSegs n => optIntFits p n
  | .cmdSetLeds n => optIntFits p n
  | .cmdSetMono _ => true
  | .cmdSetMixed index => intFits p index
  | .cmdAutoMode => true
  | .cmdToggle => true
  | .cmdGetName raw => optRawFits p raw
  | .cmdGetRaw raw => optRawFits p raw
  | .cmdGetSettings raw => optRawFits p raw
  | .fIsReady => true
  | .fToggle => true
  | .fSetColor _ _ _ => true
  | .fSetSpeed _ => true
  | .fSetBright _ => true
  | .fSetWhite _ => true
  | .fSetSegs _ _ => true
  | .fSetLeds _ _ => true
  | .fSetAnim _ => true
  | .fAutoMode => true
  | .fGetName => true
  | .fGetSettings => true

end Sys2Proof
end

