-- ==== Sys2Proof/Decode.lean ====
section
/-! DEFINITION. The decoder of requests, total on any bytes and rejecting by name; the opcode map of the frames, as a law;
and after them the encoder. A request is its
`fn` byte (30_encoding.md R66) and then its operands in the order 10_state.md R30 lists them; "how the fields are
packed into bus words is not fixed by this spec" (R30), so the packing below is the model's. [DESIGN CHOICE, log
entry 3.] A frame is the 6 bytes of 30_encoding.md R60, told apart by HEAD, TAIL, OPCODE and the zero bytes of its
payload form (R69); the block never parses one (R70), and `step` reads no frame. -/

namespace Sys2Proof

/-! ### The request decoder -/

/-- The `fn` byte of each operation (30_encoding.md R66). -/
def Op.fn : Op → Byte
  | .encMin => 0x00
  | .encW => 0x01
  | .build => 0x02
  | .parse => 0x03
  | .n2cAnim => 0x10
  | .n2cChip => 0x11
  | .n2cOrder => 0x12
  | .c2nAnim => 0x14
  | .c2nChip => 0x15
  | .c2nOrder => 0x16
  | .isReady => 0x40
  | .setPower => 0x41
  | .setColor => 0x42
  | .setSpeed => 0x43
  | .setBright => 0x44
  | .setWhite => 0x45
  | .setSegs => 0x46
  | .setLeds => 0x47
  | .setMono => 0x48
  | .setMixed => 0x49
  | .autoMode => 0x4a
  | .toggle => 0x4b
  | .getName => 0x4c
  | .getRaw => 0x4d
  | .getSettings => 0x4e

/-- The rows of the table of 30_encoding.md R66. -/
def allOps : List Op :=
  [.encMin, .encW, .build, .parse, .n2cAnim, .n2cChip, .n2cOrder, .c2nAnim, .c2nChip, .c2nOrder, .isReady,
    .setPower, .setColor, .setSpeed, .setBright, .setWhite, .setSegs, .setLeds, .setMono, .setMixed, .autoMode,
    .toggle, .getName, .getRaw, .getSettings]

/-- The operation a `fn` byte selects; `none` is an illegal function (30_encoding.md R71 (a)). -/
def opOfFn (fn : Byte) : Option Op := allOps.find? fun o => o.fn == fn

/-- The answer of an operand reader: the operand and the bytes after it. -/
inductive Operand (α : Type) where
  | got (x : α) (rest : List Byte)
  | short
  | tooLarge
deriving DecidableEq, Repr

/-- Read one operand and go on with the bytes after it. -/
def Operand.andThen {α β : Type} (o : Operand α) (f : α → List Byte → Operand β) : Operand β :=
  match o with
  | .got x rest => f x rest
  | .short => .short
  | .tooLarge => .tooLarge

/-- The next `n` bytes of a request. -/
def readN : Nat → List Byte → Operand (List Byte)
  | 0, l => .got [] l
  | _ + 1, [] => .short
  | n + 1, b :: rest => (readN n rest).andThen fun s rest' => .got (b :: s) rest'

/-- A one-byte operand. -/
def readByte : List Byte → Operand Byte
  | [] => .short
  | b :: rest => .got b rest

/-- Refuse an operand that the port cannot express (00_scope.md R8). -/
def Operand.fitting {α : Type} (ok : α → Bool) (o : Operand α) : Operand α :=
  match o with
  | .got x rest => if ok x then .got x rest else .tooLarge
  | .short => .short
  | .tooLarge => .tooLarge

/-- An unsigned number of `n` bytes, big-endian. -/
def readNat (n : Nat) (l : List Byte) : Operand Nat := (readN n l).andThen fun s rest => .got (be s) rest

/-- The `value` operand, of `VALUE_BITS` bits (00_scope.md R8). -/
def readValue (p : Port) (l : List Byte) : Operand Nat := (readNat p.valueBytes l).fitting (valueFits p)

/-- A signed operand of `INT_BITS` bits (00_scope.md R8, 40_value_encoder.md R94). -/
def readInt (p : Port) (l : List Byte) : Operand Int :=
  ((readNat p.intBytes l).fitting fun v => v < 2 ^ p.intBits).andThen fun v rest => .got (sext p.intBits v) rest

/-- A number that is at most `most`, in the fewest bytes that hold `most`. -/
def readUpTo (most : Nat) (l : List Byte) : Operand Nat := (readNat (lengthBytes most) l).fitting fun n => n ≤ most

/-- A byte sequence of at most `most` bytes: its length, then its bytes. -/
def readSeq (most : Nat) (l : List Byte) : Operand (List Byte) := (readUpTo most l).andThen readN

/-- An optional operand: its `present` flag (30_encoding.md R75), then, when present, the operand. -/
def readOpt {α : Type} (read : List Byte → Operand α) (l : List Byte) : Operand (Option α) :=
  (readByte l).andThen fun flag rest =>
    if flag = 0 then .got none rest else (read rest).andThen fun x rest' => .got (some x) rest'

/-- The operands `value`, `width` of ENC.W, `width` at most `ENC_WIDTH_MAX` (40_value_encoder.md R90, 00_scope.md
R8). -/
def readEncW (p : Port) (l : List Byte) : Operand (Nat × Nat) :=
  (readValue p l).andThen fun v rest => (readUpTo p.encWidthMax rest).andThen fun w rest' => .got (v, w) rest'

/-- The operands `opcode`, `payload` of BUILD (41_frame_codec.md R100). -/
def readBuild (p : Port) (l : List Byte) : Operand (Byte × List Byte) :=
  (readByte l).andThen fun o rest => (readSeq p.payloadInMax rest).andThen fun s rest' => .got (o, s) rest'

/-- The instruction made of the operands read; bytes after them are no operand of the operation and are ignored
(10_state.md R30). -/
def instrOf {α : Type} (fn : Byte) (o : Operand α) (mk : α → Instr) : Decoded :=
  match o with
  | .got x _ => .ok (mk x)
  | .short => .bad (.truncated fn)
  | .tooLarge => .bad (.notPresentable fn)

/-- The operands of each operation (10_state.md R30, and the operation's own rule), at a port of the given sizes. -/
def decodeOperands (p : Port) (o : Op) (l : List Byte) : Decoded :=
  match o with
  | .encMin => instrOf o.fn (readValue p l) .encMin
  | .encW => instrOf o.fn (readEncW p l) fun x => .encW x.1 x.2
  | .build => instrOf o.fn (readBuild p l) fun x => .build x.1 x.2
  | .parse => instrOf o.fn (readSeq p.rawMax l) .parse
  | .n2cAnim => instrOf o.fn (readSeq p.nameOperandMax l) .n2cAnim
  | .n2cChip => instrOf o.fn (readSeq p.nameOperandMax l) .n2cChip
  | .n2cOrder => instrOf o.fn (readSeq p.nameOperandMax l) .n2cOrder
  | .c2nAnim => instrOf o.fn (readByte l) .c2nAnim
  | .c2nChip => instrOf o.fn (readByte l) .c2nChip
  | .c2nOrder => instrOf o.fn (readByte l) .c2nOrder
  | .isReady => instrOf o.fn (readOpt (readSeq p.rawMax) l) .cmdIsReady
  | .setPower => instrOf o.fn (readByte l) fun b => .cmdSetPower (b != 0)
  | .setColor => instrOf o.fn (readInt p l) .cmdSetColor
  | .setSpeed => instrOf o.fn (readInt p l) .cmdSetSpeed
  | .setBright => instrOf o.fn (readInt p l) .cmdSetBright
  | .setWhite => instrOf o.fn (readOpt (readInt p) l) .cmdSetWhite
  | .setSegs => instrOf o.fn (readOpt (readInt p) l) .cmdSetSegs
  | .setLeds => instrOf o.fn (readOpt (readInt p) l) .cmdSetLeds
  | .setMono => instrOf o.fn (readByte l) .cmdSetMono
  | .setMixed => instrOf o.fn (readInt p l) .cmdSetMixed
  | .autoMode => .ok .cmdAutoMode
  | .toggle => .ok .cmdToggle
  | .getName => instrOf o.fn (readOpt (readSeq p.rawMax) l) .cmdGetName
  | .getRaw => instrOf o.fn (readOpt (readSeq p.rawMax) l) .cmdGetRaw
  | .getSettings => instrOf o.fn (readOpt (readSeq p.rawMax) l) .cmdGetSettings

/-- The request decoder. The `fn` byte "is checked before any operand is looked at" (60_exceptions.md R174). -/
def decodeRequest (p : Port) : List Byte → Decoded
  | [] => .bad .noFunction
  | fn :: operands =>
    match opOfFn fn with
    | none => .bad (.illegalFunction fn)
    | some o => decodeOperands p o operands

/-! ### The frames: the opcode map of 30_encoding.md R69, for laws and tests, and no operation of the block (R70) -/

/-- The rows of the table of 30_encoding.md R69. -/
def allFrameKinds : List FrameKind :=
  [.isReady, .toggle, .setColor, .setSpeed, .setBright, .setWhite, .setSegs, .setLeds, .setAnim, .autoMode,
    .getName, .getSettings]

/-- The OPCODE byte of each kind of frame (30_encoding.md R67). -/
def FrameKind.opcode (m : OpcodeMap) : FrameKind → Byte
  | .isReady => m.isReady
  | .toggle => m.toggle
  | .setColor => m.setColor
  | .setSpeed => m.setSpeed
  | .setBright => m.setBrightness
  | .setWhite => m.setWhite
  | .setSegs => m.setSegments
  | .setLeds => m.setLeds
  | .setAnim => m.setAnimation
  | .autoMode => m.autoMode
  | .getName => m.getName
  | .getSettings => m.getSettings

/-- The payload form of each kind of frame (30_encoding.md R63 and R69). -/
def FrameKind.form : FrameKind → PayloadForm
  | .isReady => .p0
  | .toggle => .p0
  | .setColor => .p3
  | .setSpeed => .p1
  | .setBright => .p1
  | .setWhite => .p1
  | .setSegs => .p2
  | .setLeds => .p2
  | .setAnim => .p1
  | .autoMode => .p0
  | .getName => .p0
  | .getSettings => .p0

/-- Whether payload bytes have the zeros their form fixes (30_encoding.md R63). -/
def PayloadForm.fits (a b c : Byte) : PayloadForm → Bool
  | .p0 => a == 0 && b == 0 && c == 0
  | .p1 => a == 0 && b == 0
  | .p2 => a == 0
  | .p3 => true

/-- The instruction of a frame of kind `k` with the payload bytes `a b c` (spec/opcode_table.json, rows `FRAME6`). -/
def FrameKind.instr (a b c : Byte) : FrameKind → Instr
  | .isReady => .fIsReady
  | .toggle => .fToggle
  | .setColor => .fSetColor a b c
  | .setSpeed => .fSetSpeed c
  | .setBright => .fSetBright c
  | .setWhite => .fSetWhite c
  | .setSegs => .fSetSegs b c
  | .setLeds => .fSetLeds b c
  | .setAnim => .fSetAnim c
  | .autoMode => .fAutoMode
  | .getName => .fGetName
  | .getSettings => .fGetSettings

/-- The kind of frame an OPCODE byte and a payload belong to (30_encoding.md R69). -/
def kindOf (m : OpcodeMap) (a b c opcode : Byte) : Option FrameKind :=
  allFrameKinds.find? fun k => k.opcode m == opcode && k.form.fits a b c

/-- The row of the opcode map a byte sequence belongs to: HEAD, three payload bytes, OPCODE, TAIL (30_encoding.md R60 and
R69). It is a law, "not an operation" (R70, 92_eei_decisions.md D27): neither `step` nor `exec` calls it. -/
def readFrame (m : OpcodeMap) : List Byte → FrameReading
  | [h, a, b, c, o, t] =>
    if h = head ∧ t = tail then
      match kindOf m a b c o with
      | some k => .ok (k.instr a b c)
      | none => .unknownFrame
    else .notAFrame
  | _ => .notAFrame

/-- The instruction of a request that decodes. -/
def Decoded.instr : Decoded → Option Instr
  | .ok i => some i
  | .bad _ => none

/-- The instruction of a frame of one of the twelve kinds. -/
def FrameReading.instr : FrameReading → Option Instr
  | .ok i => some i
  | .notAFrame => none
  | .unknownFrame => none

/-- The instruction a word of either format stands for: what the request decoder reads at the port of the configuration,
or the row of the opcode map a frame belongs to. -/
def readWord (c : Config) : Code → Option Instr
  | .request bytes => (decodeRequest c.port bytes).instr
  | .frame bytes => (readFrame c.opcodes bytes).instr

/-! ### The frame as a number, its mask and its match (30_encoding.md R69), and the inverse of BUILD (R70) -/

/-- The bits of the frame number that a row of 30_encoding.md R69 fixes: HEAD, OPCODE, TAIL, and the payload bytes
the form fixes at zero. -/
def PayloadForm.mask : PayloadForm → Nat
  | .p0 => 0xffffffffffff
  | .p1 => 0xffffff00ffff
  | .p2 => 0xffff0000ffff
  | .p3 => 0xff000000ffff

/-- `match` of a row: `0x38 * 2^40 + OPC * 2^8 + 0x83` (30_encoding.md R69). -/
def FrameKind.matchNumber (m : OpcodeMap) (k : FrameKind) : Nat := 0x38 * 2 ^ 40 + (k.opcode m).toNat * 2 ^ 8 + 0x83

/-- A well-formed frame: 6 bytes, HEAD first, TAIL last (30_encoding.md R70). -/
def wellFormedFrame (f : List Byte) : Bool :=
  f.length == frameLen && f[0]? == some head && f[5]? == some tail

/-- `opcode_of(f) = f[4]` (30_encoding.md R70). -/
def opcodeOf (f : List Byte) : Option Byte := f[4]?

/-- `payload_of(f) = f[1..3]` (30_encoding.md R70). -/
def payloadOf (f : List Byte) : List Byte := (f.drop 1).take payloadLen

/-! ### The encoder -/

/-- The bytes of a number that is at most `most`. -/
def encodeUpTo (most n : Nat) : List Byte := bytesBE n (lengthBytes most)

/-- The bytes of a sequence operand of at most `most` bytes: its length, then its bytes. -/
def encodeSeq (most : Nat) (s : List Byte) : List Byte := encodeUpTo most s.length ++ s

/-- The bytes of an optional operand: the `present` flag, then the operand (30_encoding.md R75). -/
def encodeOpt {α : Type} (enc : α → List Byte) : Option α → List Byte
  | none => [0x00]
  | some x => 0x01 :: enc x

/-- The bytes of the `value` operand. -/
def encodeVal (p : Port) (v : Nat) : List Byte := bytesBE v p.valueBytes

/-- The bytes of a signed operand. -/
def encodeInt (p : Port) (v : Int) : List Byte := bytesBE (twosComplement p.intBits v) p.intBytes

/-- A request: the `fn` byte, then the operands. -/
def requestOf (o : Op) (operands : List Byte) : Code := .request (o.fn :: operands)

/-- A frame of kind `k` with the payload `p`, padded on the high-order side (30_encoding.md R60 and R62). -/
def frameOf (m : OpcodeMap) (k : FrameKind) (p : List Byte) : Code :=
  .frame (head :: pad3 p ++ [k.opcode m, tail])

/-- The words of an instruction that is well-formed at the port of the configuration. -/
def encode (c : Config) : Instr → Code
  | .encMin value => requestOf .encMin (encodeVal c.port value)
  | .encW value width => requestOf .encW (encodeVal c.port value ++ encodeUpTo c.port.encWidthMax width)
  | .build opcode payload => requestOf .build (opcode :: encodeSeq c.port.payloadInMax payload)
  | .parse raw => requestOf .parse (encodeSeq c.port.rawMax raw)
  | .n2cAnim name => requestOf .n2cAnim (encodeSeq c.port.nameOperandMax name)
  | .n2cChip name => requestOf .n2cChip (encodeSeq c.port.nameOperandMax name)
  | .n2cOrder name => requestOf .n2cOrder (encodeSeq c.port.nameOperandMax name)
  | .c2nAnim code => requestOf .c2nAnim [code]
  | .c2nChip code => requestOf .c2nChip [code]
  | .c2nOrder code => requestOf .c2nOrder [code]
  | .cmdIsReady raw => requestOf .isReady (encodeOpt (encodeSeq c.port.rawMax) raw)
  | .cmdSetPower on => requestOf .setPower [if on then 0x01 else 0x00]
  | .cmdSetColor rgb => requestOf .setColor (encodeInt c.port rgb)
  | .cmdSetSpeed n => requestOf .setSpeed (encodeInt c.port n)
  | .cmdSetBright n => requestOf .setBright (encodeInt c.port n)
  | .cmdSetWhite n => requestOf .setWhite (encodeOpt (encodeInt c.port) n)
  | .cmdSetSegs n => requestOf .setSegs (encodeOpt (encodeInt c.port) n)
  | .cmdSetLeds n => requestOf .setLeds (encodeOpt (encodeInt c.port) n)
  | .cmdSetMono code => requestOf .setMono [code]
  | .cmdSetMixed index => requestOf .setMixed (encodeInt c.port index)
  | .cmdAutoMode => requestOf .autoMode []
  | .cmdToggle => requestOf .toggle []
  | .cmdGetName raw => requestOf .getName (encodeOpt (encodeSeq c.port.rawMax) raw)
  | .cmdGetRaw raw => requestOf .getRaw (encodeOpt (encodeSeq c.port.rawMax) raw)
  | .cmdGetSettings raw => requestOf .getSettings (encodeOpt (encodeSeq c.port.rawMax) raw)
  | .fIsReady => frameOf c.opcodes .isReady []
  | .fToggle => frameOf c.opcodes .toggle []
  | .fSetColor r g b => frameOf c.opcodes .setColor [r, g, b]
  | .fSetSpeed v => frameOf c.opcodes .setSpeed [v]
  | .fSetBright v => frameOf c.opcodes .setBright [v]
  | .fSetWhite v => frameOf c.opcodes .setWhite [v]
  | .fSetSegs h l => frameOf c.opcodes .setSegs [h, l]
  | .fSetLeds h l => frameOf c.opcodes .setLeds [h, l]
  | .fSetAnim v => frameOf c.opcodes .setAnim [v]
  | .fAutoMode => frameOf c.opcodes .autoMode []
  | .fGetName => frameOf c.opcodes .getName []
  | .fGetSettings => frameOf c.opcodes .getSettings []

/-! ### The words of spec/opcode_table.json -/

/-- The `n` bytes of a number, least significant first: bit 0 of the table's word is in the first byte. -/
def leBytes (w : Nat) : Nat → List Byte
  | 0 => []
  | n + 1 => BitVec.ofNat 8 w :: leBytes (w / 256) n

/-- No request of the packing is longer: `fn`, a flag or opcode byte, and the longest operand. -/
def requestMax (p : Port) : Nat :=
  2 + max (p.valueBytes + lengthBytes p.encWidthMax) (max p.intBytes (max (lengthBytes p.payloadInMax + p.payloadInMax)
    (max (lengthBytes p.rawMax + p.rawMax) (lengthBytes p.nameOperandMax + p.nameOperandMax))))

/-- A table word laid out as the hardware stores it. A `FRAME6` row is the 48-bit number `F`, whose byte 0 is bits 47
to 40 (00_scope.md R10); a `REQ` row is the `fn` byte, the operand bytes above it zero. -/
def tableCode (p : Port) (nbits w : Nat) : Code :=
  if nbits = 48 then .frame (bytesBE w frameLen) else .request (leBytes w (requestMax p))

/-- The instruction read from a word of the opcode table, in the default configuration (the opcodes of the `FRAME6` rows are
the table's own). -/
def decodeTableWord (nbits w : Nat) : Option Instr := readWord defaultConfig (tableCode defaultPort nbits w)

end Sys2Proof
end

