-- ==== Sys2Proof/Machine/Inbox.lean ====
section
/-! DEFINITION. Which event the block takes next. Requests are taken one at a time in the order issued
(20_memory.md R52); while a query is in progress "no second request is taken in between" (R58), and only the
transport's answer, the host's completion request for that query, or a reset is. [DESIGN CHOICE, log entries 5 and 6.] -/

namespace Sys2Proof.Machine

/-- The completion request of a query: the bytes read are its operand `req.raw` (43_commands.md R140). -/
def Query.completion (raw : List Byte) : Query → Instr
  | .isReady => .cmdIsReady (some raw)
  | .getName => .cmdGetName (some raw)
  | .getRaw => .cmdGetRaw (some raw)
  | .getSettings => .cmdGetSettings (some raw)

/-- The query an instruction completes, if it is a completion phase. -/
def completes : Instr → Option Query
  | .cmdIsReady (some _) => some .isReady
  | .cmdGetName (some _) => some .getName
  | .cmdGetRaw (some _) => some .getRaw
  | .cmdGetSettings (some _) => some .getSettings
  | .cmdIsReady none | .cmdGetName none | .cmdGetRaw none | .cmdGetSettings none => none
  | .encMin _ | .encW _ _ | .build _ _ | .parse _ => none
  | .n2cAnim _ | .n2cChip _ | .n2cOrder _ | .c2nAnim _ | .c2nChip _ | .c2nOrder _ => none
  | .cmdSetPower _ | .cmdSetColor _ | .cmdSetSpeed _ | .cmdSetBright _ | .cmdSetWhite _ | .cmdSetSegs _ => none
  | .cmdSetLeds _ | .cmdSetMono _ | .cmdSetMixed _ | .cmdAutoMode | .cmdToggle => none
  | .fIsReady | .fToggle | .fSetColor _ _ _ | .fSetSpeed _ | .fSetBright _ | .fSetWhite _ | .fSetSegs _ _ => none
  | .fSetLeds _ _ | .fSetAnim _ | .fAutoMode | .fGetName | .fGetSettings => none

/-- Whether an event is a request of the host. -/
def Event.fromHost : Event → Bool
  | .request _ => true
  | .term _ => true
  | .rsp _ _ => false
  | .failed _ _ => false
  | .reset => false

/-- The instruction an event of the host asks for, if its request decodes. -/
def Event.asks (c : Config) : Event → Option Instr
  | .request bytes => (decodeRequest c.port bytes).instr
  | .term i => some i
  | .rsp _ _ => none
  | .failed _ _ => none
  | .reset => none

/-- Whether an event may be taken while the query `q` is in progress: of the host's requests only that query's completion;
what comes from the transport may, also what answers a command that is over, which is then dropped. -/
def answersQuery (c : Config) (q : Query) (e : Event) : Bool :=
  !e.fromHost || (e.asks c).bind completes == some q

/-- How a word of the opcode table is asked for: a request word as a request; a frame word as the row it belongs to, or,
where it belongs to none, as the bytes it is, which the block takes for a request (log entry 4). -/
def wordEvent (c : Config) : Code → Event
  | .request bytes => .request bytes
  | .frame bytes =>
    match readFrame c.opcodes bytes with
    | .ok i => .term i
    | .notAFrame => .request bytes
    | .unknownFrame => .request bytes

/-- The first event that `p` accepts: those before it, the event, those after it. -/
def firstReady (p : Event → Bool) : List Event → Option (List Event × Event × List Event)
  | [] => none
  | e :: rest =>
    if p e then some ([], e, rest)
    else match firstReady p rest with
      | some (before, x, after) => some (e :: before, x, after)
      | none => none

/-- The event the block takes next and what stays waiting. A request that waits behind a query is dropped by the
reset that abandons the query: after reset "no request is pending" (10_state.md R34). [DEDUCED, log entry 7.] -/
def nextEvent (s : State) : Option (Event × List Event) :=
  match s.query with
  | none =>
    match s.inbox with
    | [] => none
    | e :: rest => some (e, rest)
  | some p =>
    match firstReady (answersQuery s.cfg p.query) s.inbox with
    | none => none
    | some (before, e, after) => some (e, if e = .reset then after else before ++ after)

end Sys2Proof.Machine
end

