-- ==== Sys2Proof/Machine/Step.lean ====
section
/-! DEFINITION. One step: take the next event the block is ready for, and answer it. There is no program counter and
no fetch: "what it does next is whatever the host's next request says" (10_state.md R21). -/

namespace Sys2Proof.Machine

/-- What an instruction the decoder rejects comes to. An illegal `fn` raises `IllegalFunction(info = fn)`
(60_exceptions.md R174); the rest is refused by name. [DESIGN CHOICE, log entry 13.] -/
def rejected (e : DecodeError) (s : State) : Result :=
  match e with
  | .illegalFunction fn => .next ((s.start []).raise .illegalFunction (some fn.toNat))
  | .noFunction => .refused .emptyRequest
  | .truncated fn => .refused (.truncatedRequest fn)
  | .notPresentable fn => .refused (.operandNotPresentable fn)

/-- What the block does with an event it takes: run the instruction; run the completion phase on the bytes that answer
the frame of the query in progress; close that query when the transport fails on it (60_exceptions.md R176; log entry
11); drop the bytes of an abandoned query, which "are handed to nobody" (70_reset_and_hazards.md R201; log entry 19), and
any others that nobody asked for (60_exceptions.md R178); reset. -/
def handle (e : Event) (s : State) : Result :=
  match e with
  | .request bytes =>
    match decodeRequest s.cfg.port bytes with
    | .ok i => exec i s
    | .bad why => rejected why s
  | .term i => exec i s
  | .rsp call bytes =>
    match s.awaiting call with
    | some q => exec (q.completion bytes) s
    | none => .next s
  | .failed call _ =>
    match s.awaiting call with
    | some _ => .next { s with query := none }
    | none => .next s
  | .reset => .next s.doReset

/-- One step. With nothing to take the block is idle, or waits for the transport (60_exceptions.md R190,
20_memory.md R58). -/
def step (s : State) : Host.Outcome State Fault Refusal :=
  match nextEvent s with
  | some (e, inbox) => handle e { s with inbox := inbox }
  | none => .next s

/-- The instruction of a table word, where `step` takes its next one: just asked for, first in line, and no query in
progress that would keep it waiting. [DESIGN CHOICE, log entry 4.] -/
def State.withFetchWord (s : State) (nbits w : Nat) : State :=
  { s with inbox := wordEvent s.cfg (tableCode s.cfg.port nbits w) :: s.inbox, query := none }

end Sys2Proof.Machine
end

