-- ==== Sys2Proof/Safety.lean ====
section
/-! DEFINITION. The terms the statements use: the next states a rule describes, written out field by field and not
through the operations the meanings call; what an unknown code is; and the invariant of every run. -/

namespace Sys2Proof.Machine

/-- No warning, `res.warn = 000` (10_state.md R22). -/
def warn000 : Warn := ⟨false, false, false⟩

/-- The state after an operation that gives the response `r` and hands nothing to the transport: `FRAME` is `frame`,
`RAW` holds the operand `raw`, everything else is as it was. -/
def answered (s : State) (frame : Memory) (raw : List Byte) (r : Response) : State :=
  { s with frame := frame, raw := Memory.ofBytes raw, resp := some r, responses := s.responses ++ [r] }

/-- The state after `raise E(info)` (60_exceptions.md R181): only `status` and `info` have a value (10_state.md R31), the
warning bits are 000, and `FRAME` is not driven. -/
def raised (s : State) (raw : List Byte) (e : Status) (info : Option Int) : State :=
  answered s [] raw { status := e, warnBits := warn000, info := info }

/-- The state after a format phase that ends `OK` (43_commands.md R140): `FRAME` holds `f`, the response carries it
with `expect` and `rsp_len`, and the wire trace gains the three; `q` is the query that now awaits the `n` bytes that answer
this element of the trace. -/
def handedOver (s : State) (f : List Byte) (q : Option Query) (n : Nat) : State :=
  { answered s (Memory.ofBytes f) []
      { status := .ok, warnBits := warn000, frame := some f, expect := some q.isSome, rspLen := some n } with
    wire := s.wire ++ [{ frame := f, expect := q.isSome, rspLen := n }]
    query := q.map fun q => ⟨q, s.wire.length⟩ }

/-- The state after a completion phase that ends `OK` (43_commands.md R140): the response `r`, the query no longer in
progress. -/
def completed (s : State) (raw : List Byte) (r : Response) : State := { answered s [] raw r with query := none }

/-- The state after a completion phase that was handed too few bytes (43_commands.md R156). -/
def cutShort (s : State) (raw : List Byte) : State :=
  { raised s raw .malformedResponse (some raw.length) with query := none }

/-- The frame with the payload bytes `a b c` and the given opcode (30_encoding.md R60). -/
def frameBytes (a b c opcode : Byte) : List Byte := [0x38, a, b, c, opcode, 0x83]

/-- `code` is in an entry of the table (60_exceptions.md R175). -/
def hasCode (t : EnumTable) (code : Byte) : Bool := t.any fun e => e.code == code

/-- The record of a status response, by the layout of 20_memory.md R49: sixteen-bit fields big-endian (R42), the colour
red, green, blue (R43), offsets 0 and 16 not in it (R50). -/
def settingsFrom (t : EnumTables) (raw : List Byte) : Settings :=
  { power := raw.getD 1 0 != 0
    animation := decodeEnum t.anim (raw.getD 2 0)
    speed := raw.getD 3 0
    brightness := raw.getD 4 0
    colorOrder := decodeEnum t.order (raw.getD 5 0)
    ledsPerSegment := raw.getD 6 0 ++ raw.getD 7 0
    segments := raw.getD 8 0 ++ raw.getD 9 0
    color := ⟨raw.getD 10 0, raw.getD 11 0, raw.getD 12 0⟩
    chip := decodeEnum t.chip (raw.getD 13 0)
    patterns := raw.getD 14 0
    white := raw.getD 15 0 }

/-- The warnings of a status response: one bit for each enumeration byte that is in no entry of its table
(60_exceptions.md R175). -/
def unknownIn (t : EnumTables) (raw : List Byte) : Warn :=
  ⟨!hasCode t.anim (raw.getD 2 0), !hasCode t.order (raw.getD 5 0), !hasCode t.chip (raw.getD 13 0)⟩

/-- The response of PARSE, and of the completion phase of CMD.GETSETTINGS, to a blob that is long enough
(41_frame_codec.md R101). -/
def parsedResponse (t : EnumTables) (raw : List Byte) : Response :=
  { status := .ok, warnBits := unknownIn t raw, settings := some (settingsFrom t raw) }

/-- `fn` selects the instructions in `p`, and no other `fn` does (30_encoding.md R66): at a port of any sizes
(00_scope.md R8) a request that decodes is one of them exactly when its first byte is `fn`. -/
def fnSelects (fn : Byte) (p : Instr → Prop) : Prop :=
  ∀ (port : Port) (bytes : List Byte) (i : Instr), decodeRequest port bytes = .ok i → (p i ↔ bytes.head? = some fn)

/-- The status of the response that is present, if one is. -/
def statusOf (t : State) : Option Status := t.resp.map Response.status

/-- The kinds of response 10_state.md R31 and 60_exceptions.md R170 and R181 allow: an error carries nothing but
`status` and `info`; `info` is invalid when `OK`; a frame is a well-formed frame; `rsp_len` is 0, 1, 17 or 18 and goes
with `expect`; a name is valid only when `known`. -/
def responseWf (r : Response) : Prop :=
  (r.status ≠ .ok → r = { status := r.status, warnBits := warn000, info := r.info }) ∧
  (r.status = .ok → r.info = none) ∧
  (∀ f, r.frame = some f → wellFormedFrame f = true) ∧
  (∀ n, r.rspLen = some n → n ∈ [0, 1, 17, 18] ∧ r.expect = some (n != 0) ∧ r.frame.isSome = true) ∧
  (r.name.isSome = true ↔ r.known = some true)

/-- The response length that goes with a kind of frame (43_commands.md R158). -/
def kindRspLen : FrameKind → Nat
  | .isReady => 1
  | .getName => 18
  | .getSettings => 17
  | .toggle => 0
  | .setColor => 0
  | .setSpeed => 0
  | .setBright => 0
  | .setWhite => 0
  | .setSegs => 0
  | .setLeds => 0
  | .setAnim => 0
  | .autoMode => 0

/-- What may stand on the wire (60_exceptions.md R192, 30_encoding.md R69, 43_commands.md R158): a complete frame of one
of the twelve kinds, with the response length of that kind. -/
def wireWf (m : OpcodeMap) (w : WireEntry) : Prop :=
  ∃ k a b c, k.form.fits a b c = true ∧ w.frame = frameBytes a b c (k.opcode m) ∧ w.rspLen = kindRspLen k ∧
    w.expect = (w.rspLen != 0)

/-- The invariant: an admissible configuration; canonical buffers; well-formed responses, the response record being
the last of them when it is present; `FRAME` driven only in a response that carries the frame (10_state.md R29); only
complete frames on the wire; and a query in progress is the one whose frame was handed over last, which is the element of
the wire trace it awaits the answer to. -/
def Inv (s : State) : Prop :=
  s.cfg.admissible ∧
  Memory.wf s.frame = true ∧ Memory.wf s.raw = true ∧
  (∀ r ∈ s.responses, responseWf r) ∧
  (s.resp = none ∨ s.resp = s.responses.getLast?) ∧
  (s.frame ≠ [] → ∃ r f, s.resp = some r ∧ r.status = .ok ∧ r.frame = some f ∧
    Memory.bytesAt s.frame 0 6 = some f ∧ ∀ a, 6 ≤ a → Memory.byteAt s.frame a = none) ∧
  (∀ w ∈ s.wire, wireWf s.cfg.opcodes w) ∧
  (∀ p, s.query = some p → p.call + 1 = s.wire.length ∧
    ∃ w, s.wire.getLast? = some w ∧ w.expect = true ∧ w.rspLen = p.query.rspLen)

end Sys2Proof.Machine
end

