-- ==== Sys2Proof/Certificates/Slice0/Obligations.lean ====
section
/-! DEFINITION. The statements for the provers. Each docstring names the rule of spec/ the statement formalises, or says
that it rests on a choice of the model's and names the log entry. The next states are those of Safety.lean. -/

open Sys2Proof Sys2Proof.Machine

/-! ### Encoding -/

/-- Decode and encode agree on every instruction that is well-formed at the port, for every size of port (00_scope.md R8)
and every opcode map of pairwise different bytes. The packing of a request is the model's choice (log entry 3); that of a
frame is 30_encoding.md R60 and R69. -/
def Obligations.EncodedInstructionsDecode : Prop :=
  ∀ (c : Config) (i : Instr), c.opcodes.distinct → wellFormed c.port i = true → readWord c (encode c i) = some i

/-- At every size of port the decoder gives only instructions whose operands that port can present (00_scope.md R8,
10_state.md R29). -/
def Obligations.DecodedInstructionsAreWellFormed : Prop :=
  ∀ (c : Config) (w : Code) (i : Instr), readWord c w = some i → wellFormed c.port i = true

/-- Bytes after the operands an operation names do not change the instruction: "An operand a rule does not name is
ignored by that operation" (10_state.md R30). The packing is the model's choice (log entry 3). -/
def Obligations.ExtraRequestBytesAreIgnored : Prop :=
  ∀ (p : Port) (bytes extra : List Byte) (i : Instr), decodeRequest p bytes = .ok i →
    decodeRequest p (bytes ++ extra) = .ok i

/-- The match and mask table of 30_encoding.md R69 and the reading of a frame give every 6-byte sequence the same kind. -/
def Obligations.FrameKindsAreMatchAndMask : Prop :=
  ∀ (m : OpcodeMap) (h a b c o t : Byte) (k : FrameKind), m.distinct →
    (be [h, a, b, c, o, t] &&& k.form.mask = k.matchNumber m ↔
      readFrame m [h, a, b, c, o, t] = .ok (k.instr a b c))

/-- A sequence of another length than 6, or without HEAD or TAIL, is no frame (30_encoding.md R70, R71 (d)): the predicate
"well-formed frame", and the reading of a frame, which is a law and no operation of the block. -/
def Obligations.IllFormedFramesAreRejected : Prop :=
  ∀ (m : OpcodeMap) (f : List Byte),
    (wellFormedFrame f = false ↔ readFrame m f = .notAFrame) ∧
    (wellFormedFrame f = true ↔ f.length = 6 ∧ f.head? = some 0x38 ∧ f.getLast? = some 0x83)

/-- Two request words and three frame words, written out from 30_encoding.md R66 and R69, decode to their instructions;
the frame word of no kind and the request word of no operation give none. That the word of ENC.MIN alone carries the value
0 rests on the packing and on the operand bytes above a table word being zero (log entry 3), the opcode bytes are the
defaults (log entry 1), and that a frame is an instruction is the model's choice (log entry 2). -/
def Obligations.WrittenWordsDecode : Prop :=
  decodeTableWord 8 0x00 = some (.encMin 0) ∧
  decodeTableWord 8 0x4b = some .cmdToggle ∧
  decodeTableWord 48 0x380000002f83 = some .fIsReady ∧
  decodeTableWord 48 0x380001002e83 = some (.fSetSegs 0x01 0x00) ∧
  decodeTableWord 48 0x38ff00002283 = some (.fSetColor 0xff 0x00 0x00) ∧
  decodeTableWord 48 0x380001002a83 = none ∧
  decodeTableWord 8 0x04 = none

/-! ### The Value Encoder -/

/-- ENC.W (40_value_encoder.md R90): exactly `width` bytes with the value, each byte as the rule gives it, or
`RangeError(info = value)` where the value does not fit. -/
def Obligations.EncWEncodesOrRaises : Prop :=
  fnSelects 0x01 (fun i => ∃ v w, i = .encW v w) ∧
  ∀ (value width : Nat) (s : State),
    (value < 256 ^ width → ∃ bs : List Byte, bs.length = width ∧ be bs = value ∧
      (∀ i, i < width → (bs.getD i 0).toNat = value / 256 ^ (width - 1 - i) % 256) ∧
      exec (.encW value width) s = .next (answered s [] [] { status := .ok, warnBits := warn000, bytes := some bs })) ∧
    (256 ^ width ≤ value → exec (.encW value width) s = .next (raised s [] .rangeError (some value)))

/-- ENC.MIN (40_value_encoder.md R91): the fewest whole bytes that hold the value, at least one; it never fails. -/
def Obligations.EncMinEncodesInFewestBytes : Prop :=
  fnSelects 0x00 (fun i => ∃ v, i = .encMin v) ∧
  ∀ (value : Nat) (s : State), ∃ bs : List Byte,
    be bs = value ∧ bs.length = max 1 ((bitlen value + 7) / 8) ∧
    (∀ n, 1 ≤ n → value < 256 ^ n → bs.length ≤ n) ∧
    (0 < value → bs.head? ≠ some 0) ∧ (value = 0 → bs = [0]) ∧
    exec (.encMin value) s = .next (answered s [] [] { status := .ok, warnBits := warn000, bytes := some bs })

/-- The laws of the encoder (40_value_encoder.md R93 (a) to (f)). -/
def Obligations.EncoderLaws : Prop :=
  ∀ (v w : Nat),
    (v < 256 ^ w → ∃ bs, encodeValue v w = some bs ∧ be bs = v ∧ bs.length = w ∧ (hexLc bs).length = 2 * w ∧
      unhex (hexLc bs) = some bs) ∧
    (encodeValue v w = none ↔ 256 ^ w ≤ v) ∧
    (encodeValue v (minWidth v) = some (bytesBE v (minWidth v)) ∧ 1 ≤ minWidth v ∧
      ∀ n, 1 ≤ n → v < 256 ^ n → minWidth v ≤ n) ∧
    (minWidth v ≤ w → encodeValue v w = some (zeros (w - minWidth v) ++ bytesBE v (minWidth v))) ∧
    (∀ v' bs, encodeValue v w = some bs → encodeValue v' w = some bs → v = v') ∧
    (w ≤ 3 → ∀ bs, encodeValue v w = some bs → encodeValue v 3 = some (pad3 bs) ∧ pad3 bs = bytesBE v 3)

/-- `unhex` accepts both cases, so the upper-case rendering reads back as well (40_value_encoder.md R92). -/
def Obligations.HexReadsBackInBothCases : Prop :=
  ∀ s : List Byte, unhex (hexLc s) = some s ∧ unhex (hexUc s) = some s

/-! ### The Frame Codec -/

/-- BUILD (41_frame_codec.md R100): HEAD, the payload padded with zeros on the high-order side, the opcode, TAIL; or
`RangeError(info = len(payload))` above three bytes. -/
def Obligations.BuildAssemblesOrRaises : Prop :=
  fnSelects 0x02 (fun i => ∃ o p, i = .build o p) ∧
  ∀ (opcode : Byte) (payload : List Byte) (s : State),
    (payload.length ≤ 3 → ∃ f : List Byte,
      f = 0x38 :: (List.replicate (3 - payload.length) 0x00 ++ payload ++ [opcode, 0x83]) ∧
      exec (.build opcode payload) s =
        .next (answered s (Memory.ofBytes f) [] { status := .ok, warnBits := warn000, frame := some f })) ∧
    (3 < payload.length →
      exec (.build opcode payload) s = .next (raised s [] .rangeError (some payload.length)))

/-- The map of `FRAME` (20_memory.md R48) after BUILD: each byte at its offset, and no other offset holds a value. -/
def Obligations.FrameBufferMap : Prop :=
  ∀ (opcode : Byte) (payload : List Byte) (s t : State), payload.length ≤ 3 →
    exec (.build opcode payload) s = .next t →
    Memory.byteAt t.frame 0 = some 0x38 ∧
    Memory.read t.frame 1 3 = some (be payload) ∧
    Memory.byteAt t.frame 4 = some opcode ∧
    Memory.byteAt t.frame 5 = some 0x83 ∧
    ∀ a, 6 ≤ a → Memory.byteAt t.frame a = none

/-- BUILD and its inverse functions (30_encoding.md R70): what BUILD gives is a well-formed frame with that opcode and
the padded payload, and a well-formed frame is what BUILD gives of its own opcode and payload. -/
def Obligations.BuildAndItsInverse : Prop :=
  ∀ s : State,
    (∀ (o : Byte) (p : List Byte), p.length ≤ 3 → ∃ f t, exec (.build o p) s = .next t ∧
      t.resp.bind Response.frame = some f ∧ wellFormedFrame f = true ∧ opcodeOf f = some o ∧ payloadOf f = pad3 p) ∧
    (∀ f : List Byte, wellFormedFrame f = true → ∃ o t, opcodeOf f = some o ∧
      exec (.build o (payloadOf f)) s = .next t ∧ t.resp.bind Response.frame = some f)

/-- PARSE (41_frame_codec.md R101): the record by the layout of 20_memory.md R49 with a warning for each unknown
code, or `MalformedResponseError(info = len(RAW))` below 17 bytes. -/
def Obligations.ParseReadsOrRaises : Prop :=
  fnSelects 0x03 (fun i => ∃ r, i = .parse r) ∧
  ∀ (raw : List Byte) (s : State),
    (17 ≤ raw.length → exec (.parse raw) s = .next (answered s [] raw (parsedResponse s.cfg.tables raw))) ∧
    (raw.length < 17 → exec (.parse raw) s = .next (raised s raw .malformedResponse (some raw.length)))

/-- The address map of `RAW` (20_memory.md R49, R42, R43): each of the eleven fields, as PARSE's response has it, is
what `MemRead` gives at the field's offset and width. -/
def Obligations.ParsedFieldsAreMemReads : Prop :=
  ∀ (raw : List Byte) (s t : State), 17 ≤ raw.length → exec (.parse raw) s = .next t →
    ∃ x, t.resp.bind Response.settings = some x ∧
      (∃ p, Memory.read t.raw 1 1 = some p ∧ (x.power = true ↔ p ≠ 0)) ∧
      Memory.read t.raw 2 1 = some x.animation.code.toNat ∧
      Memory.read t.raw 3 1 = some x.speed.toNat ∧
      Memory.read t.raw 4 1 = some x.brightness.toNat ∧
      Memory.read t.raw 5 1 = some x.colorOrder.code.toNat ∧
      Memory.read t.raw 6 2 = some x.ledsPerSegment.toNat ∧
      Memory.read t.raw 8 2 = some x.segments.toNat ∧
      Memory.read t.raw 10 3 = some (x.color.red.toNat * 65536 + x.color.green.toNat * 256 + x.color.blue.toNat) ∧
      Memory.read t.raw 13 1 = some x.chip.code.toNat ∧
      Memory.read t.raw 14 1 = some x.patterns.toNat ∧
      Memory.read t.raw 15 1 = some x.white.toNat

/-- Two blobs of at least 17 bytes give the same response to PARSE whenever they agree on offsets 2 to 15 and on
whether the byte at offset 1 is zero (20_memory.md R50, 41_frame_codec.md R104 (b) and (d)); and only then. -/
def Obligations.ParseDependsOnNamedOffsetsOnly : Prop :=
  ∀ (raw raw' : List Byte) (s t t' : State), 17 ≤ raw.length → 17 ≤ raw'.length →
    exec (.parse raw) s = .next t → exec (.parse raw') s = .next t' →
    (t.resp = t'.resp ↔
      ((raw.getD 1 0 = 0 ↔ raw'.getD 1 0 = 0) ∧ ∀ i, 2 ≤ i → i ≤ 15 → raw.getD i 0 = raw'.getD i 0))

/-! ### The Enumeration Tables -/

/-- The forward lookups (42_enum_tables.md R122, R123, R124): the code of the entry with that name, or `NotFound` with
no `info`. -/
def Obligations.ForwardLookups : Prop :=
  fnSelects 0x10 (fun i => ∃ n, i = .n2cAnim n) ∧
  fnSelects 0x11 (fun i => ∃ n, i = .n2cChip n) ∧
  fnSelects 0x12 (fun i => ∃ n, i = .n2cOrder n) ∧
  ∀ s : State, s.cfg.tablesAdmissible →
    (∀ e ∈ s.cfg.tables.anim,
      exec (.n2cAnim e.name) s = .next (answered s [] [] { status := .ok, warnBits := warn000, code := some e.code })) ∧
    (∀ e ∈ s.cfg.tables.chip,
      exec (.n2cChip e.name) s = .next (answered s [] [] { status := .ok, warnBits := warn000, code := some e.code })) ∧
    (∀ e ∈ s.cfg.tables.order,
      exec (.n2cOrder e.name) s = .next (answered s [] [] { status := .ok, warnBits := warn000, code := some e.code })) ∧
    (∀ n, (∀ e ∈ s.cfg.tables.anim, e.name ≠ n) → exec (.n2cAnim n) s = .next (raised s [] .notFound none)) ∧
    (∀ n, (∀ e ∈ s.cfg.tables.chip, e.name ≠ n) → exec (.n2cChip n) s = .next (raised s [] .notFound none)) ∧
    (∀ n, (∀ e ∈ s.cfg.tables.order, e.name ≠ n) → exec (.n2cOrder n) s = .next (raised s [] .notFound none))

/-- "the empty name and a name longer than `NAME_MAX` are never in a table ..., so they raise `NotFound`"
(42_enum_tables.md R122), for every `NAME_MAX` (00_scope.md R8). -/
def Obligations.UnsymbolicNamesAreNotFound : Prop :=
  ∀ (s : State) (n : Name), s.cfg.tablesAdmissible → (n = [] ∨ s.cfg.port.nameMax < n.length) →
    exec (.n2cAnim n) s = .next (raised s [] .notFound none) ∧
    exec (.n2cChip n) s = .next (raised s [] .notFound none) ∧
    exec (.n2cOrder n) s = .next (raised s [] .notFound none)

/-- The reverse lookups (42_enum_tables.md R125, R126, R127): the code always, the name of the entry with that code
when there is one, the warning bit of the table when there is none. -/
def Obligations.ReverseLookups : Prop :=
  fnSelects 0x14 (fun i => ∃ c, i = .c2nAnim c) ∧
  fnSelects 0x15 (fun i => ∃ c, i = .c2nChip c) ∧
  fnSelects 0x16 (fun i => ∃ c, i = .c2nOrder c) ∧
  ∀ s : State, s.cfg.tablesAdmissible →
    (∀ e ∈ s.cfg.tables.anim, exec (.c2nAnim e.code) s = .next (answered s [] []
      { status := .ok, warnBits := warn000, code := some e.code, known := some true, name := some e.name })) ∧
    (∀ e ∈ s.cfg.tables.chip, exec (.c2nChip e.code) s = .next (answered s [] []
      { status := .ok, warnBits := warn000, code := some e.code, known := some true, name := some e.name })) ∧
    (∀ e ∈ s.cfg.tables.order, exec (.c2nOrder e.code) s = .next (answered s [] []
      { status := .ok, warnBits := warn000, code := some e.code, known := some true, name := some e.name })) ∧
    (∀ c, (∀ e ∈ s.cfg.tables.anim, e.code ≠ c) → exec (.c2nAnim c) s = .next (answered s [] []
      { status := .ok, warnBits := ⟨true, false, false⟩, code := some c, known := some false })) ∧
    (∀ c, (∀ e ∈ s.cfg.tables.chip, e.code ≠ c) → exec (.c2nChip c) s = .next (answered s [] []
      { status := .ok, warnBits := ⟨false, false, true⟩, code := some c, known := some false })) ∧
    (∀ c, (∀ e ∈ s.cfg.tables.order, e.code ≠ c) → exec (.c2nOrder c) s = .next (answered s [] []
      { status := .ok, warnBits := ⟨false, true, false⟩, code := some c, known := some false }))

/-- `decode_enum` (41_frame_codec.md R102): the known form for an entry of a one-to-one table, the raw code for a code
that is in no entry; either form keeps the byte. -/
def Obligations.EnumDecodingFallsBack : Prop :=
  ∀ t : EnumTable, EnumTable.oneToOne t →
    (∀ e ∈ t, decodeEnum t e.code = .known e.name e.code) ∧
    (∀ c, (∀ e ∈ t, e.code ≠ c) → decodeEnum t c = .raw c) ∧
    (∀ c, (decodeEnum t c).code = c)

/-- The laws of the lookups (42_enum_tables.md R130 (a) to (e)); the searches being functions, (f) is their type. -/
def Obligations.LookupLaws : Prop :=
  ∀ t : EnumTable, EnumTable.oneToOne t →
    (∀ n c, lookupFwd t n = some c → lookupRev t c = some n) ∧
    (∀ n c, lookupRev t c = some n → lookupFwd t n = some c) ∧
    (∀ n n' c, lookupFwd t n = some c → lookupFwd t n' = some c → n = n') ∧
    (∀ c c' n, lookupRev t c = some n → lookupRev t c' = some n → c = c') ∧
    (∀ c, lookupRev t c = (reverseTable t).lookup c) ∧
    (∀ c, (decodeEnum t c).code = c)

/-- The entries the source fixes, for all tables that meet 10_state.md R26 and R27 (42_enum_tables.md R128; vectors T1 to
T7). -/
def Obligations.SourceEntriesAreFound : Prop :=
  ∀ s : State, s.cfg.tablesAdmissible →
    exec (.n2cAnim (ascii "meteor")) s =
      .next (answered s [] [] { status := .ok, warnBits := warn000, code := some 0xcd }) ∧
    exec (.n2cOrder (ascii "GRB")) s =
      .next (answered s [] [] { status := .ok, warnBits := warn000, code := some 0x02 }) ∧
    exec (.n2cChip (ascii "WS2811")) s =
      .next (answered s [] [] { status := .ok, warnBits := warn000, code := some 0x03 }) ∧
    exec (.c2nAnim 0x01) s = .next (answered s [] []
      { status := .ok, warnBits := ⟨true, false, false⟩, code := some 0x01, known := some false }) ∧
    (∃ c, exec (.n2cChip (ascii "APA102")) s =
      .next (answered s [] [] { status := .ok, warnBits := warn000, code := some c }))

/-- The default configuration is one of this hardware (70_reset_and_hazards.md R203, 30_encoding.md R67), its tables have
the six facts of 42_enum_tables.md R128, and in its `TABLE_ANIM` no code is a mixed animation's (R131). The contents are
defaults (log entry 1). -/
def Obligations.DefaultConfigurationIsAdmissible : Prop :=
  defaultConfig.admissible ∧ defaultConfig.tables.contentFacts ∧
    ∀ e ∈ defaultConfig.tables.anim, 179 < e.code.toNat

/-! ### The command formatters -/

/-- CMD.ISREADY (43_commands.md R141): its frame, and the byte read, or too few bytes. -/
def Obligations.IsReadyBothPhases : Prop :=
  fnSelects 0x40 (fun i => ∃ r, i = .cmdIsReady r) ∧
  (∀ b : Byte, readyAsBool b = true ↔ b ≠ 0) ∧
  ∀ (s : State) (raw : List Byte),
    exec (.cmdIsReady none) s =
      .next (handedOver s (frameBytes 0 0 0 s.cfg.opcodes.isReady) (some .isReady) 1) ∧
    (1 ≤ raw.length → exec (.cmdIsReady (some raw)) s =
      .next (completed s raw { status := .ok, warnBits := warn000, readyByte := some (raw.getD 0 0) })) ∧
    (raw.length < 1 → exec (.cmdIsReady (some raw)) s = .next (cutShort s raw))

/-- CMD.GETNAME (43_commands.md R153): its frame, and the first 18 bytes untouched, or too few bytes. -/
def Obligations.GetNameBothPhases : Prop :=
  fnSelects 0x4c (fun i => ∃ r, i = .cmdGetName r) ∧
  ∀ (s : State) (raw : List Byte),
    exec (.cmdGetName none) s =
      .next (handedOver s (frameBytes 0 0 0 s.cfg.opcodes.getName) (some .getName) 18) ∧
    (18 ≤ raw.length → exec (.cmdGetName (some raw)) s =
      .next (completed s raw { status := .ok, warnBits := warn000, nameBytes := some (raw.take 18) })) ∧
    (raw.length < 18 → exec (.cmdGetName (some raw)) s = .next (cutShort s raw))

/-- CMD.GETRAW (43_commands.md R154): its frame, and the first 17 bytes untouched, or too few bytes. -/
def Obligations.GetRawBothPhases : Prop :=
  fnSelects 0x4d (fun i => ∃ r, i = .cmdGetRaw r) ∧
  ∀ (s : State) (raw : List Byte),
    exec (.cmdGetRaw none) s =
      .next (handedOver s (frameBytes 0 0 0 s.cfg.opcodes.getSettings) (some .getRaw) 17) ∧
    (17 ≤ raw.length → exec (.cmdGetRaw (some raw)) s =
      .next (completed s raw { status := .ok, warnBits := warn000, rawOut := some (raw.take 17) })) ∧
    (raw.length < 17 → exec (.cmdGetRaw (some raw)) s = .next (cutShort s raw))

/-- CMD.GETSETTINGS (43_commands.md R155): CMD.GETRAW's frame, and the record PARSE gives, or too few bytes. -/
def Obligations.GetSettingsBothPhases : Prop :=
  fnSelects 0x4e (fun i => ∃ r, i = .cmdGetSettings r) ∧
  ∀ (s : State) (raw : List Byte),
    exec (.cmdGetSettings none) s =
      .next (handedOver s (frameBytes 0 0 0 s.cfg.opcodes.getSettings) (some .getSettings) 17) ∧
    (17 ≤ raw.length → exec (.cmdGetSettings (some raw)) s =
      .next (completed s raw (parsedResponse s.cfg.tables raw))) ∧
    (raw.length < 17 → exec (.cmdGetSettings (some raw)) s = .next (cutShort s raw))

/-- CMD.GETSETTINGS "is the composition `CMD.GETRAW` then `PARSE` on the bytes it returned" (30_encoding.md R74 (a)):
PARSE of CMD.GETRAW's `raw_out` gives the same response. -/
def Obligations.GetSettingsIsGetRawThenParse : Prop :=
  ∀ (s : State) (raw out : List Byte) (t u v : State),
    exec (.cmdGetRaw (some raw)) s = .next t → t.resp.bind Response.rawOut = some out →
    exec (.parse out) t = .next u → exec (.cmdGetSettings (some raw)) s = .next v → u.resp = v.resp

/-- CMD.SETPOWER emits CMD.TOGGLE's frame whatever its operand, both `38 00 00 00 OPC_TOGGLE 83` (43_commands.md R142
and R152); CMD.AUTOMODE emits `38 00 00 00 OPC_AUTO_MODE 83` (R151). -/
def Obligations.FixedFrameCommands : Prop :=
  fnSelects 0x41 (fun i => ∃ b, i = .cmdSetPower b) ∧
  fnSelects 0x4a (fun i => i = .cmdAutoMode) ∧
  fnSelects 0x4b (fun i => i = .cmdToggle) ∧
  ∀ (s : State) (on : Bool),
    exec (.cmdSetPower on) s = .next (handedOver s (frameBytes 0 0 0 s.cfg.opcodes.toggle) none 0) ∧
    exec .cmdToggle s = .next (handedOver s (frameBytes 0 0 0 s.cfg.opcodes.toggle) none 0) ∧
    exec .cmdAutoMode s = .next (handedOver s (frameBytes 0 0 0 s.cfg.opcodes.autoMode) none 0)

/-- CMD.SETCOLOR (43_commands.md R143): red, green, blue at offsets 1, 2, 3; outside 0 to 16777215, `RangeError`. -/
def Obligations.SetColorFrame : Prop :=
  fnSelects 0x42 (fun i => ∃ n, i = .cmdSetColor n) ∧
  ∀ s : State,
    (∀ r g b : Byte, exec (.cmdSetColor (r.toNat * 65536 + g.toNat * 256 + b.toNat)) s =
      .next (handedOver s (frameBytes r g b s.cfg.opcodes.setColor) none 0)) ∧
    (∀ n : Int, 0 ≤ n → n ≤ 16777215 → ∃ r g b : Byte, n = r.toNat * 65536 + g.toNat * 256 + b.toNat) ∧
    (∀ n : Int, n < 0 ∨ 16777215 < n → exec (.cmdSetColor n) s = .next (raised s [] .rangeError (some n)))

/-- CMD.SETSPEED (43_commands.md R144) and CMD.SETBRIGHT (R145): the value at offset 3; outside 0 to 255,
`RangeError`. -/
def Obligations.SpeedAndBrightnessFrames : Prop :=
  fnSelects 0x43 (fun i => ∃ n, i = .cmdSetSpeed n) ∧
  fnSelects 0x44 (fun i => ∃ n, i = .cmdSetBright n) ∧
  ∀ (s : State) (n : Int),
    (0 ≤ n → n ≤ 255 →
      exec (.cmdSetSpeed n) s =
        .next (handedOver s (frameBytes 0 0 (BitVec.ofInt 8 n) s.cfg.opcodes.setSpeed) none 0) ∧
      exec (.cmdSetBright n) s =
        .next (handedOver s (frameBytes 0 0 (BitVec.ofInt 8 n) s.cfg.opcodes.setBrightness) none 0)) ∧
    (n < 0 ∨ 255 < n →
      exec (.cmdSetSpeed n) s = .next (raised s [] .rangeError (some n)) ∧
      exec (.cmdSetBright n) s = .next (raised s [] .rangeError (some n)))

/-- CMD.SETWHITE (43_commands.md R146): as CMD.SETBRIGHT, with the default 80 when the operand is absent. -/
def Obligations.SetWhiteFrame : Prop :=
  fnSelects 0x45 (fun i => ∃ n, i = .cmdSetWhite n) ∧
  ∀ (s : State) (n : Int),
    (0 ≤ n → n ≤ 255 → exec (.cmdSetWhite (some n)) s =
      .next (handedOver s (frameBytes 0 0 (BitVec.ofInt 8 n) s.cfg.opcodes.setWhite) none 0)) ∧
    (n < 0 ∨ 255 < n → exec (.cmdSetWhite (some n)) s = .next (raised s [] .rangeError (some n))) ∧
    exec (.cmdSetWhite none) s = .next (handedOver s (frameBytes 0 0 0x50 s.cfg.opcodes.setWhite) none 0)

/-- CMD.SETSEGS (43_commands.md R147) and CMD.SETLEDS (R148): the count big-endian at offsets 2 and 3, the zero pad
byte at offset 1; outside 0 to 65535, `RangeError`; the defaults 1 and 154. -/
def Obligations.CountFrames : Prop :=
  fnSelects 0x46 (fun i => ∃ n, i = .cmdSetSegs n) ∧
  fnSelects 0x47 (fun i => ∃ n, i = .cmdSetLeds n) ∧
  ∀ s : State,
    (∀ h l : Byte,
      exec (.cmdSetSegs (some (h.toNat * 256 + l.toNat))) s =
        .next (handedOver s (frameBytes 0 h l s.cfg.opcodes.setSegments) none 0) ∧
      exec (.cmdSetLeds (some (h.toNat * 256 + l.toNat))) s =
        .next (handedOver s (frameBytes 0 h l s.cfg.opcodes.setLeds) none 0)) ∧
    (∀ n : Int, 0 ≤ n → n ≤ 65535 → ∃ h l : Byte, n = h.toNat * 256 + l.toNat) ∧
    (∀ n : Int, n < 0 ∨ 65535 < n →
      exec (.cmdSetSegs (some n)) s = .next (raised s [] .rangeError (some n)) ∧
      exec (.cmdSetLeds (some n)) s = .next (raised s [] .rangeError (some n))) ∧
    exec (.cmdSetSegs none) s = .next (handedOver s (frameBytes 0 0 0x01 s.cfg.opcodes.setSegments) none 0) ∧
    exec (.cmdSetLeds none) s = .next (handedOver s (frameBytes 0 0 0x9a s.cfg.opcodes.setLeds) none 0)

/-- CMD.SETMONO (43_commands.md R149): any byte, at offset 3; up to 179 the same as CMD.SETMIXED of one more. -/
def Obligations.SetMonoFrame : Prop :=
  fnSelects 0x48 (fun i => ∃ c, i = .cmdSetMono c) ∧
  ∀ (s : State) (code : Byte),
    exec (.cmdSetMono code) s = .next (handedOver s (frameBytes 0 0 code s.cfg.opcodes.setAnimation) none 0) ∧
    (code.toNat ≤ 179 → exec (.cmdSetMixed (code.toNat + 1)) s = exec (.cmdSetMono code) s)

/-- CMD.SETMIXED (43_commands.md R150): `index - 1` at offset 3 for 1 to 180, so that `CMD.SETMONO code=c` with
`c <= 179` is `CMD.SETMIXED index=c+1` (R149); outside, `RangeError` with the index as given. -/
def Obligations.SetMixedFrame : Prop :=
  fnSelects 0x49 (fun i => ∃ n, i = .cmdSetMixed n) ∧
  ∀ (s : State) (n : Int),
    (1 ≤ n → n ≤ 180 →
      exec (.cmdSetMixed n) s =
        .next (handedOver s (frameBytes 0 0 (BitVec.ofInt 8 (n - 1)) s.cfg.opcodes.setAnimation) none 0) ∧
      (BitVec.ofInt 8 (n - 1)).toNat ≤ 179 ∧
      exec (.cmdSetMixed n) s = exec (.cmdSetMono (BitVec.ofInt 8 (n - 1))) s) ∧
    (n < 1 ∨ 180 < n → exec (.cmdSetMixed n) s = .next (raised s [] .rangeError (some n)))

/-- "Every value-carrying CMD expands to a range check, `ENC.W` at the command's semantic width, and `BUILD` with the
command's opcode" (30_encoding.md R74 (d)): the bytes ENC.W answers, given to BUILD, make the command's frame. -/
def Obligations.ValueCommandsAreEncWThenBuild : Prop :=
  ∀ (s : State) (v : Nat) (i : Instr) (w : Nat) (o : Byte),
    ((i, w, o) = (.cmdSetColor v, 3, s.cfg.opcodes.setColor) ∨
     (i, w, o) = (.cmdSetSpeed v, 1, s.cfg.opcodes.setSpeed) ∨
     (i, w, o) = (.cmdSetBright v, 1, s.cfg.opcodes.setBrightness) ∨
     (i, w, o) = (.cmdSetWhite (some v), 1, s.cfg.opcodes.setWhite) ∨
     (i, w, o) = (.cmdSetSegs (some v), 2, s.cfg.opcodes.setSegments) ∨
     (i, w, o) = (.cmdSetLeds (some v), 2, s.cfg.opcodes.setLeds) ∨
     (i, w, o) = (.cmdSetMixed (v + 1), 1, s.cfg.opcodes.setAnimation) ∧ v ≤ 179) →
    ∃ t, exec (.encW v w) s = .next t ∧
      ∀ p, t.resp.bind Response.bytes = some p →
        ∃ u x f, exec (.build o p) t = .next u ∧ u.resp.bind Response.frame = some f ∧
          exec i s = .next x ∧ x.resp.bind Response.frame = some f

/-! ### The frames -/

/-- The twelve frame rows of the opcode table, as instructions: the emission by the command whose rule the row names, and
the same next state as that command's format phase, so that the rows add nothing to what the 25 operations do and the block
takes no frame in (30_encoding.md R70). That a frame row is an instruction is the model's choice (log entry 2). -/
def Obligations.FramesAreHandedOver : Prop :=
  ∀ (s : State) (a b c : Byte),
    exec .fIsReady s = .next (handedOver s (frameBytes 0 0 0 s.cfg.opcodes.isReady) (some .isReady) 1) ∧
    exec .fToggle s = .next (handedOver s (frameBytes 0 0 0 s.cfg.opcodes.toggle) none 0) ∧
    exec (.fSetColor a b c) s = .next (handedOver s (frameBytes a b c s.cfg.opcodes.setColor) none 0) ∧
    exec (.fSetSpeed c) s = .next (handedOver s (frameBytes 0 0 c s.cfg.opcodes.setSpeed) none 0) ∧
    exec (.fSetBright c) s = .next (handedOver s (frameBytes 0 0 c s.cfg.opcodes.setBrightness) none 0) ∧
    exec (.fSetWhite c) s = .next (handedOver s (frameBytes 0 0 c s.cfg.opcodes.setWhite) none 0) ∧
    exec (.fSetSegs b c) s = .next (handedOver s (frameBytes 0 b c s.cfg.opcodes.setSegments) none 0) ∧
    exec (.fSetLeds b c) s = .next (handedOver s (frameBytes 0 b c s.cfg.opcodes.setLeds) none 0) ∧
    exec (.fSetAnim c) s = .next (handedOver s (frameBytes 0 0 c s.cfg.opcodes.setAnimation) none 0) ∧
    exec .fAutoMode s = .next (handedOver s (frameBytes 0 0 0 s.cfg.opcodes.autoMode) none 0) ∧
    exec .fGetName s = .next (handedOver s (frameBytes 0 0 0 s.cfg.opcodes.getName) (some .getName) 18) ∧
    exec .fGetSettings s = .next (handedOver s (frameBytes 0 0 0 s.cfg.opcodes.getSettings) (some .getRaw) 17) ∧
    exec .fIsReady s = exec (.cmdIsReady none) s ∧
    exec .fToggle s = exec .cmdToggle s ∧
    exec (.fSetColor a b c) s = exec (.cmdSetColor (a.toNat * 65536 + b.toNat * 256 + c.toNat)) s ∧
    exec (.fSetSpeed c) s = exec (.cmdSetSpeed c.toNat) s ∧
    exec (.fSetBright c) s = exec (.cmdSetBright c.toNat) s ∧
    exec (.fSetWhite c) s = exec (.cmdSetWhite (some c.toNat)) s ∧
    exec (.fSetSegs b c) s = exec (.cmdSetSegs (some (b.toNat * 256 + c.toNat))) s ∧
    exec (.fSetLeds b c) s = exec (.cmdSetLeds (some (b.toNat * 256 + c.toNat))) s ∧
    exec (.fSetAnim c) s = exec (.cmdSetMono c) s ∧
    exec .fAutoMode s = exec .cmdAutoMode s ∧
    exec .fGetName s = exec (.cmdGetName none) s ∧
    exec .fGetSettings s = exec (.cmdGetRaw none) s

/-- "A frame is sent as it is, all 6 bytes" (70_reset_and_hazards.md R207 (a)): the bytes that belong to a frame row are the
bytes that the row's emission puts on the wire. That a frame row is an instruction is the model's choice (log entry 2). -/
def Obligations.FramesAreSentAsTheyAre : Prop :=
  ∀ (s t : State) (f : List Byte) (i : Instr),
    readFrame s.cfg.opcodes f = .ok i → exec i s = .next t → ∃ e n, t.wire = s.wire ++ [⟨f, e, n⟩]

/-! ### Errors, and what every instruction keeps to -/

/-- No instruction stops: an operation ends `OK` or with an error status, and "There is no third outcome"
(60_exceptions.md R182). -/
def Obligations.EveryInstructionAnswers : Prop :=
  ∀ (i : Instr) (s : State), ∃ t, exec i s = .next t ∧ ∃ r, t.resp = some r ∧ t.responses = s.responses ++ [r]

/-- `raise` (60_exceptions.md R181): an operation that ends with an error writes `status`, `info` and no warning bit; of
the fields of the response `warn` has then no value either (10_state.md R31, 92_eei_decisions.md D23); `FRAME` is not
driven, nothing is handed to the transport, and the configuration is as it was. That the bits are written and the field is
invalid is how the model reads the two rules together (log entry 10). -/
def Obligations.ErrorsHaveNoOtherEffect : Prop :=
  ∀ (i : Instr) (s t : State) (r : Response), exec i s = .next t → t.resp = some r → r.status ≠ .ok →
    r = { status := r.status, warnBits := warn000, info := r.info } ∧ r.warn = none ∧ t.frame = [] ∧ t.wire = s.wire ∧
      t.cfg = s.cfg ∧ t.inbox = s.inbox

/-- "The complete list of causes" of `RangeError` in the block, and nothing is sent when one holds (60_exceptions.md
R171). -/
def Obligations.RangeErrorCauses : Prop :=
  ∀ (i : Instr) (s t : State), exec i s = .next t →
    (statusOf t = some .rangeError → t.wire = s.wire) ∧
    (statusOf t = some .rangeError ↔
      (∃ v w, i = .encW v w ∧ 256 ^ w ≤ v) ∨
      (∃ o p, i = .build o p ∧ 3 < p.length) ∨
      (∃ n, i = .cmdSetColor n ∧ ¬(0 ≤ n ∧ n ≤ 16777215)) ∨
      (∃ n, (i = .cmdSetSpeed n ∨ i = .cmdSetBright n ∨ i = .cmdSetWhite (some n)) ∧ ¬(0 ≤ n ∧ n ≤ 255)) ∨
      (∃ n, (i = .cmdSetSegs (some n) ∨ i = .cmdSetLeds (some n)) ∧ ¬(0 ≤ n ∧ n ≤ 65535)) ∨
      (∃ n, i = .cmdSetMixed n ∧ ¬(1 ≤ n ∧ n ≤ 180)))

/-- The causes of `MalformedResponseError` in the block (60_exceptions.md R172). -/
def Obligations.MalformedResponseCauses : Prop :=
  ∀ (i : Instr) (s t : State), exec i s = .next t →
    (statusOf t = some .malformedResponse ↔
      ∃ raw : List Byte,
        ((i = .parse raw ∨ i = .cmdGetRaw (some raw) ∨ i = .cmdGetSettings (some raw)) ∧ raw.length < 17) ∨
        (i = .cmdGetName (some raw) ∧ raw.length < 18) ∨
        (i = .cmdIsReady (some raw) ∧ raw.length < 1))

/-- "Only PARSE, CMD.GETSETTINGS and the three C2N lookups can set a `res.warn` bit" (10_state.md R22), in a response
whose field `warn` is then those bits. -/
def Obligations.WarningsComeFromDecodingOnly : Prop :=
  ∀ (i : Instr) (s t : State) (r : Response), exec i s = .next t → t.resp = some r → r.warnBits ≠ warn000 →
    r.status = .ok ∧ r.warn = some r.warnBits ∧
    ((∃ raw, i = .parse raw) ∨ (∃ raw, i = .cmdGetSettings (some raw)) ∨
      ∃ c, i = .c2nAnim c ∨ i = .c2nChip c ∨ i = .c2nOrder c)

/-- The wire trace (70_reset_and_hazards.md R214): one element, the response's own frame, `expect` and `rsp_len`, for
every instruction that ends with an `rsp_len`, and none for any other. -/
def Obligations.WireTraceFollowsResponses : Prop :=
  ∀ (i : Instr) (s t : State) (r : Response), exec i s = .next t → t.resp = some r →
    (r.rspLen = none → t.wire = s.wire) ∧
    (∀ n, r.rspLen = some n → ∃ f e, r.frame = some f ∧ r.expect = some e ∧ t.wire = s.wire ++ [⟨f, e, n⟩])

/-- No hidden state (10_state.md R32): the response, the buffers and the new wire elements are the same from any two
states with the same constants. -/
def Obligations.ResponsesDependOnRequestOnly : Prop :=
  ∀ (i : Instr) (s s' t t' : State), s.cfg = s'.cfg → exec i s = .next t → exec i s' = .next t' →
    t.resp = t'.resp ∧ t.frame = t'.frame ∧ t.raw = t'.raw ∧
      ∃ new, t.wire = s.wire ++ new ∧ t'.wire = s'.wire ++ new

/-! ### Steps -/

/-- What is asked for is what runs: with no query in progress, the first request in line that decodes to `i`, or that is
`i` as a term (log entry 6), is taken and `step` is `exec i` on what is left (20_memory.md R52). -/
def Obligations.StepRunsTheDecodedInstruction : Prop :=
  ∀ (s : State) (rest : List Event) (i : Instr), s.query = none →
    (∀ bytes, s.inbox = .request bytes :: rest → decodeRequest s.cfg.port bytes = .ok i →
      step s = exec i { s with inbox := rest }) ∧
    (s.inbox = .term i :: rest → step s = exec i { s with inbox := rest })

/-- A word placed by `withFetchWord` is what the next step runs, in every configuration; where the port and the opcodes
are the defaults (log entry 1) it is the instruction of the opcode table. -/
def Obligations.PlacedTableWordRuns : Prop :=
  ∀ (s : State) (nbits w : Nat) (i : Instr),
    (readWord s.cfg (tableCode s.cfg.port nbits w) = some i →
      step (s.withFetchWord nbits w) = exec i { s with query := none }) ∧
    (s.cfg.port = defaultPort → s.cfg.opcodes = defaultOpcodes → decodeTableWord nbits w = some i →
      step (s.withFetchWord nbits w) = exec i { s with query := none })

/-- An illegal `fn` raises `IllegalFunction` with `info = fn`, whatever bytes follow it (60_exceptions.md R174,
30_encoding.md R71 (a)). The bytes of a command frame are no other than that to the block, which has no operation that
parses one (30_encoding.md R70): they raise it with `info = 0x38`. That `fn` is a request's first byte is the model's
packing (log entry 3), that a frame's bytes reach the block only as a request is the model's reading (log entry 2), and so
are the line of events and the field `query` (log entries 6 and 5). -/
def Obligations.IllegalFunctionIsRaised : Prop :=
  ∀ (s : State) (rest : List Event), s.query = none →
    (∀ (fn : Byte) (operands : List Byte), s.inbox = .request (fn :: operands) :: rest →
      fn.toNat ∉ [0x00, 0x01, 0x02, 0x03, 0x10, 0x11, 0x12, 0x14, 0x15, 0x16, 0x40, 0x41, 0x42, 0x43, 0x44, 0x45, 0x46,
        0x47, 0x48, 0x49, 0x4a, 0x4b, 0x4c, 0x4d, 0x4e] →
      step s = .next (raised { s with inbox := rest } [] .illegalFunction (some fn.toNat))) ∧
    (∀ f, wellFormedFrame f = true → s.inbox = .request f :: rest →
      step s = .next (raised { s with inbox := rest } [] .illegalFunction (some 0x38)))

/-- While a query is in progress "no second request is taken in between" (20_memory.md R58): with nothing but
requests that do not complete it in line, the block waits. -/
def Obligations.NoRequestIsTakenDuringAQuery : Prop :=
  ∀ (s : State) (p : Pending), s.query = some p →
    (∀ e ∈ s.inbox, e.fromHost = true ∧ ∀ raw, e.asks s.cfg ≠ some (p.query.completion raw)) →
    step s = .next s

/-- The bytes that answer the frame of the query in progress run its completion phase, whatever requests wait
(43_commands.md R140). That an answer says which frame it answers is the model's choice (log entry 19). -/
def Obligations.TransportBytesCompleteTheQuery : Prop :=
  ∀ (s : State) (p : Pending) (before after : List Event) (raw : List Byte), s.query = some p →
    s.inbox = before ++ .rsp p.call raw :: after →
    (∀ e ∈ before, e.fromHost = true ∧ ∀ bytes, e.asks s.cfg ≠ some (p.query.completion bytes)) →
    step s = exec (p.query.completion raw) { s with inbox := before ++ after }

/-- A transport failure on the query in progress ends the command with no response of the block and no completion phase
(60_exceptions.md R176, 70_reset_and_hazards.md R207 (e)); a failure of a command that is over ends nothing. That a failure
says which frame it is the failure of is the model's choice (log entry 19). -/
def Obligations.TransportFailureEndsTheCommand : Prop :=
  ∀ (s : State) (call : Nat) (why : TransportError) (rest : List Event), s.inbox = .failed call why :: rest →
    (∀ p, s.query = some p → p.call = call → step s = .next { s with inbox := rest, query := none }) ∧
    ((∀ p, s.query = some p → p.call ≠ call) → step s = .next { s with inbox := rest })

/-- Reset (70_reset_and_hazards.md R200 and R201): no response present, `FRAME` not driven, a query between its
phases abandoned, the constants and the wire trace as they were. -/
def Obligations.ResetAbandonsAndKeepsConstants : Prop :=
  ∀ (s : State) (rest : List Event), s.inbox = .reset :: rest →
    step s = .next { s with inbox := rest, query := none, frame := [], raw := [], resp := none }

/-- Bytes nobody asked for are never read (60_exceptions.md R178): those that come with no query in progress, and those
that answer another frame than that of the query in progress (70_reset_and_hazards.md R207 (d); log entry 19). With
nothing in line the block stays as it is (60_exceptions.md R190). -/
def Obligations.UnaskedBytesAreNeverRead : Prop :=
  ∀ (s : State) (call : Nat) (bytes : List Byte) (rest : List Event),
    ((∀ p, s.query = some p → p.call ≠ call) → s.inbox = .rsp call bytes :: rest →
      step s = .next { s with inbox := rest }) ∧
    (s.inbox = [] → step s = .next s)

/-- "A reset between the format phase and the completion phase of a query abandons the query: the bytes the transport
later returns are handed to nobody" (70_reset_and_hazards.md R201), also where the next request has put another query in
progress: whatever instruction runs after the reset, the late bytes change nothing. The premise on `call` is a clause of
the invariant; that an answer says which frame it answers is the model's choice (log entry 19). -/
def Obligations.AbandonedBytesAreHandedToNobody : Prop :=
  ∀ (s : State) (p : Pending) (e : Event) (i : Instr) (late : List Byte) (rest : List Event),
    s.query = some p → p.call < s.wire.length →
    s.inbox = .reset :: e :: .rsp p.call late :: rest → e.asks s.cfg = some i →
    ∃ t u, step s = .next t ∧ t.query = none ∧ t.resp = none ∧
      step t = .next u ∧ exec i { t with inbox := .rsp p.call late :: rest } = .next u ∧
      step u = .next { u with inbox := rest }

/-- Between the phases and after: a query's frame goes out, and when the transport hands back the bytes that answer it, the
next step ends the command with PARSE's response to them (43_commands.md R140 and R155). The two request bytes are the
packing's and the number of the answer is the model's (log entries 3 and 19). -/
def Obligations.SettingsQueryEndToEnd : Prop :=
  ∀ (s : State) (raw : List Byte) (rest : List Event), s.query = none → 17 ≤ raw.length →
    s.inbox = .request [0x4e, 0x00] :: .rsp s.wire.length raw :: rest →
    ∃ t u, step s = .next t ∧ step t = .next u ∧
      t.wire = s.wire ++ [⟨frameBytes 0 0 0 s.cfg.opcodes.getSettings, true, 17⟩] ∧
      u.wire = t.wire ∧ u.query = none ∧ u.inbox = rest ∧ u.cfg = s.cfg ∧
      u.resp = some (parsedResponse s.cfg.tables raw)

/-- `step` never writes the constants (10_state.md R23), never takes back a response or a frame, and adds at most one
of each (20_memory.md R52, 70_reset_and_hazards.md R214). -/
def Obligations.StepAppendsAndKeepsConstants : Prop :=
  ∀ s t : State, step s = .next t → t.cfg = s.cfg ∧
    (t.responses = s.responses ∨ ∃ r, t.responses = s.responses ++ [r]) ∧
    (t.wire = s.wire ∨ ∃ w, t.wire = s.wire ++ [w])

/-- `step` never faults: every read of a buffer is at an offset the buffer holds (20_memory.md R59, "An access never
faults"). -/
def Obligations.NoStepFaults : Prop := ∀ (s : State) (f : Fault), step s ≠ .fault f

/-- Every step keeps the invariant of Safety.lean: canonical buffers, an admissible configuration, well-formed
responses, `FRAME` driven only in a response that carries it (10_state.md R29), only complete frames of the twelve kinds
on the wire with their response length (60_exceptions.md R192), a query in progress being the last handed over. -/
def Obligations.StepKeepsTheInvariant : Prop := ∀ s t : State, Inv s → step s = .next t → Inv t

/-- The state after reset meets the invariant. -/
def Obligations.ResetMeetsTheInvariant : Prop := Inv State.reset

/-- The state after reset (10_state.md R34): no request pending, no response present, `FRAME` invalid, the constants as
configured. The configured values are the defaults: the port's sizes those of 00_scope.md R8, the opcodes and the tables
those of log entry 1. -/
def Obligations.ResetState : Prop :=
  State.reset = ⟨defaultConfig, [], none, [], [], none, [], []⟩ ∧ defaultConfig.port = ⟨32, 32, 4, 7, 32, 16⟩ ∧
    head = 0x38 ∧ tail = 0x83
end

