-- ==== Sys2Proof/Laws/Bytes.lean ====
section
/-! SUPPORT. Byte sequences: `be` and `bytesBE` are inverse to each other on values that fit (00_scope.md R11). -/

namespace Sys2Proof

@[simp] theorem be_nil : be [] = 0 := rfl

@[simp] theorem be_append_singleton (s : List Byte) (b : Byte) : be (s ++ [b]) = be s * 256 + b.toNat := by
  simp [be, List.foldl_append]

@[simp] theorem bytesBE_length (v n : Nat) : (bytesBE v n).length = n := by
  induction n generalizing v with
  | zero => rfl
  | succ n ih => simp [bytesBE, ih]

theorem be_lt (s : List Byte) : be s < 256 ^ s.length := by
  induction s using List.reverseRecOn with
  | nil => simp
  | append_singleton s b ih =>
    have := b.isLt
    simp only [be_append_singleton, List.length_append, List.length_singleton, Nat.pow_succ]
    omega

/-- Encoding and reading back: `be(bytes_be(v, n)) = v` for `v < 256^n`, and the low-order part otherwise. -/
theorem be_bytesBE (v n : Nat) : be (bytesBE v n) = v % 256 ^ n := by
  induction n generalizing v with
  | zero => simp [bytesBE, Nat.mod_one]
  | succ n ih =>
    rw [bytesBE, be_append_singleton, ih, BitVec.toNat_ofNat, Nat.pow_succ' (n := n), Nat.mod_mul]
    omega

theorem be_bytesBE_of_lt {v n : Nat} (h : v < 256 ^ n) : be (bytesBE v n) = v := by
  rw [be_bytesBE, Nat.mod_eq_of_lt h]

/-- "the one sequence `s` with `len(s) = n` and `be(s) = v`" (00_scope.md R11). -/
theorem bytesBE_be (s : List Byte) : bytesBE (be s) s.length = s := by
  induction s using List.reverseRecOn with
  | nil => rfl
  | append_singleton s b ih =>
    have hb := b.isLt
    have h1 : (be s * 256 + b.toNat) / 256 = be s := by omega
    simp only [be_append_singleton, List.length_append, List.length_singleton, bytesBE, h1, ih]
    congr 2
    apply BitVec.eq_of_toNat_eq
    simp only [BitVec.toNat_ofNat]
    omega

theorem be_append (s t : List Byte) : be (s ++ t) = be s * 256 ^ t.length + be t := by
  induction t using List.reverseRecOn with
  | nil => simp
  | append_singleton t b ih =>
    rw [← List.append_assoc, be_append_singleton, be_append_singleton, ih, List.length_append,
      List.length_singleton, Nat.pow_succ]
    ring

@[simp] theorem be_singleton (b : Byte) : be [b] = b.toNat := by simp [be]

@[simp] theorem bytesBE_one (b : Byte) : bytesBE b.toNat 1 = [b] := by
  simpa using bytesBE_be [b]

theorem bytesBE_three (a b c : Byte) : bytesBE (be [a, b, c]) 3 = [a, b, c] := bytesBE_be [a, b, c]

/-- The fewest bytes hold the value (40_value_encoder.md R91). -/
theorem lt_pow_minWidth (v : Nat) : v < 256 ^ minWidth v := by
  by_cases h : v = 0
  · subst h; decide
  · have h1 : v < 2 ^ (Nat.log2 v + 1) := Nat.lt_log2_self
    have h2 : bitlen v = Nat.log2 v + 1 := by simp [bitlen, h]
    have h3 : Nat.log2 v + 1 ≤ 8 * minWidth v := by rw [minWidth, h2]; omega
    calc v < 2 ^ (Nat.log2 v + 1) := h1
      _ ≤ 2 ^ (8 * minWidth v) := Nat.pow_le_pow_right (by decide) h3
      _ = 256 ^ minWidth v := by rw [Nat.pow_mul]

theorem pad3_length {p : List Byte} (h : p.length ≤ 3) : (pad3 p).length = 3 := by
  simp [pad3, zeros, payloadLen]
  omega

@[simp] theorem pad3_nil : pad3 [] = [0, 0, 0] := rfl

@[simp] theorem pad3_one (c : Byte) : pad3 [c] = [0, 0, c] := rfl

@[simp] theorem pad3_two (b c : Byte) : pad3 [b, c] = [0, b, c] := rfl

@[simp] theorem pad3_three (a b c : Byte) : pad3 [a, b, c] = [a, b, c] := rfl

/-- A payload of at most three bytes is one of the four forms of 30_encoding.md R63. -/
theorem payload_cases {p : List Byte} (h : p.length ≤ 3) :
    p = [] ∨ (∃ c, p = [c]) ∨ (∃ b c, p = [b, c]) ∨ ∃ a b c, p = [a, b, c] := by
  match p, h with
  | [], _ => exact .inl rfl
  | [c], _ => exact .inr (.inl ⟨c, rfl⟩)
  | [b, c], _ => exact .inr (.inr (.inl ⟨b, c, rfl⟩))
  | [a, b, c], _ => exact .inr (.inr (.inr ⟨a, b, c, rfl⟩))

end Sys2Proof
end

