-- ==== Sys2Proof/Laws/Decode.lean ====
section
/-! SUPPORT. The operand readers of the request decoder: each reads back what the encoder wrote, and goes on with the
bytes after it. -/

namespace Sys2Proof

/-- `readN` is `take` and `drop`, where there are enough bytes. -/
theorem readN_eq (n : Nat) (l : List Byte) :
    readN n l = if n ≤ l.length then .got (l.take n) (l.drop n) else .short := by
  induction n generalizing l with
  | zero => simp [readN]
  | succ n ih =>
    cases l with
    | nil => simp [readN]
    | cons b rest =>
      rw [readN, ih]
      by_cases h : n ≤ rest.length
      · simp [h, Operand.andThen]
      · simp [h, Operand.andThen]

theorem readN_append (s rest : List Byte) : readN s.length (s ++ rest) = .got s rest := by
  rw [readN_eq, if_pos (by simp), List.take_left, List.drop_left]

/-- The bytes for so many bits hold a number of so many bits. -/
theorem pow_bits_le (bits : Nat) : 2 ^ bits ≤ 256 ^ bytesFor bits := by
  calc 2 ^ bits ≤ 2 ^ (8 * bytesFor bits) := Nat.pow_le_pow_right (by decide) (by rw [bytesFor]; omega)
    _ = 256 ^ bytesFor bits := by rw [Nat.pow_mul]

/-- The bytes for a number that is at most `most` hold it. -/
theorem lt_pow_lengthBytes {n most : Nat} (h : n ≤ most) : n < 256 ^ lengthBytes most :=
  Nat.lt_of_le_of_lt h (lt_pow_minWidth most)

/-- Two's complement reads back (00_scope.md R8, `INT_BITS`). -/
theorem sext_twosComplement {p : Port} {v : Int} (h : intFits p v = true) :
    sext p.intBits (twosComplement p.intBits v) = v ∧ twosComplement p.intBits v < 2 ^ p.intBits := by
  obtain ⟨h1, h2⟩ := (Bool.and_eq_true _ _).mp h
  rw [decide_eq_true_eq] at h1 h2
  have hpos : (0 : Int) < 2 ^ p.intBits := by positivity
  have hcast : ((2 ^ p.intBits : Nat) : Int) = 2 ^ p.intBits := by push_cast; rfl
  have hmod : v % 2 ^ p.intBits = if v < 0 then v + 2 ^ p.intBits else v := by
    split
    · rw [← Int.add_emod_right, Int.emod_eq_of_lt (by omega) (by omega)]
    · exact Int.emod_eq_of_lt (by omega) (by omega)
  rw [sext, twosComplement, hmod]
  constructor
  · split <;> split <;> omega
  · split <;> omega

/-- An operand that fits is read as it is. -/
theorem Operand.fitting_got {α : Type} {ok : α → Bool} {x : α} (rest : List Byte) (h : ok x = true) :
    (Operand.got x rest).fitting ok = .got x rest := by
  rw [Operand.fitting, if_pos h]

theorem readNat_bytesBE {v n : Nat} (rest : List Byte) (h : v < 256 ^ n) :
    readNat n (bytesBE v n ++ rest) = .got v rest := by
  have h1 : readN n (bytesBE v n ++ rest) = .got (bytesBE v n) rest := by
    simpa using readN_append (bytesBE v n) rest
  rw [readNat, h1, Operand.andThen, be_bytesBE_of_lt h]

theorem readValue_encode {p : Port} {v : Nat} (rest : List Byte) (h : valueFits p v = true) :
    readValue p (encodeVal p v ++ rest) = .got v rest := by
  have h1 : v < 256 ^ p.valueBytes := Nat.lt_of_lt_of_le (by simpa [valueFits] using h) (pow_bits_le _)
  rw [readValue, encodeVal, readNat_bytesBE rest h1, Operand.fitting_got rest h]

theorem readInt_encode {p : Port} {v : Int} (rest : List Byte) (h : intFits p v = true) :
    readInt p (encodeInt p v ++ rest) = .got v rest := by
  obtain ⟨h1, h2⟩ := sext_twosComplement h
  have h3 : twosComplement p.intBits v < 256 ^ p.intBytes := Nat.lt_of_lt_of_le h2 (pow_bits_le _)
  rw [readInt, encodeInt, readNat_bytesBE rest h3, Operand.fitting_got rest (by simpa using h2), Operand.andThen, h1]

theorem readUpTo_encode {n most : Nat} (rest : List Byte) (h : n ≤ most) :
    readUpTo most (encodeUpTo most n ++ rest) = .got n rest := by
  rw [readUpTo, encodeUpTo, readNat_bytesBE rest (lt_pow_lengthBytes h), Operand.fitting_got rest (by simpa using h)]

theorem readSeq_encode {s : List Byte} {most : Nat} (rest : List Byte) (h : s.length ≤ most) :
    readSeq most (encodeSeq most s ++ rest) = .got s rest := by
  rw [readSeq, encodeSeq, List.append_assoc, readUpTo_encode _ h, Operand.andThen, readN_append]

/-- An optional operand reads back if the operand does. -/
theorem readOpt_encode {α : Type} (read : List Byte → Operand α) (enc : α → List Byte) (o : Option α)
    (rest : List Byte) (h : ∀ x, o = some x → read (enc x ++ rest) = .got x rest) :
    readOpt read (encodeOpt enc o ++ rest) = .got o rest := by
  cases o with
  | none => rfl
  | some x =>
    rw [readOpt, encodeOpt, List.cons_append, readByte, Operand.andThen, if_neg (by decide), h x rfl]
    rfl

/-- The operation of a `fn` byte of the table (30_encoding.md R66). -/
theorem opOfFn_fn (o : Op) : opOfFn o.fn = some o := by cases o <;> rfl

/-- The kind of frame is the one with that opcode, where the payload fits its form (30_encoding.md R69). -/
theorem kindOf_opcode {m : OpcodeMap} (hm : m.distinct) (k : FrameKind) (a b c : Byte) :
    kindOf m a b c (k.opcode m) = if k.form.fits a b c then some k else none := by
  have hinj : ∀ k', k'.opcode m = k.opcode m → k' = k := by
    simp only [OpcodeMap.distinct, OpcodeMap.bytes, List.nodup_cons, List.mem_cons, List.not_mem_nil, or_false,
      not_or] at hm
    intro k' h
    cases k <;> cases k' <;> simp_all [FrameKind.opcode, eq_comm]
  have hmem : k ∈ allFrameKinds := by cases k <;> decide
  cases hf : kindOf m a b c (k.opcode m) with
  | none =>
    rw [kindOf, List.find?_eq_none] at hf
    have := hf k hmem
    simp_all
  | some k' =>
    have h := List.find?_some hf
    simp only [Bool.and_eq_true, beq_iff_eq] at h
    have := hinj k' h.1
    subst this
    rw [if_pos h.2]

end Sys2Proof
end

