-- ==== Sys2Proof/Laws/Defaults.lean ====
section
/-! SUPPORT. The default tables with their names written as bytes, so that a proof over them evaluates no string. -/

namespace Sys2Proof

theorem defaultAnim_eq : defaultAnim =
    [⟨[0x6d, 0x65, 0x74, 0x65, 0x6f, 0x72], 0xcd⟩,
   ⟨[0x62, 0x72, 0x65, 0x61, 0x74, 0x68, 0x69, 0x6e, 0x67], 0xce⟩, ⟨[0x73, 0x74, 0x61, 0x63, 0x6b], 0xcf⟩,
   ⟨[0x66, 0x6c, 0x6f, 0x77], 0xd0⟩, ⟨[0x77, 0x61, 0x76, 0x65], 0xd1⟩, ⟨[0x66, 0x6c, 0x61, 0x73, 0x68], 0xd2⟩,
   ⟨[0x73, 0x74, 0x61, 0x74, 0x69, 0x63], 0xd3⟩, ⟨[0x63, 0x61, 0x74, 0x63, 0x68, 0x20, 0x75, 0x70], 0xd4⟩] := rfl

theorem defaultOrder_eq : defaultOrder =
    [⟨[0x52, 0x47, 0x42], 0x00⟩, ⟨[0x52, 0x42, 0x47], 0x01⟩, ⟨[0x47, 0x52, 0x42], 0x02⟩,
   ⟨[0x47, 0x42, 0x52], 0x03⟩, ⟨[0x42, 0x52, 0x47], 0x04⟩, ⟨[0x42, 0x47, 0x52], 0x05⟩] := rfl

theorem defaultChip_eq : defaultChip =
    [⟨[0x53, 0x4d, 0x31, 0x36, 0x37, 0x30, 0x33], 0x00⟩, ⟨[0x54, 0x4d, 0x31, 0x38, 0x30, 0x34], 0x01⟩,
   ⟨[0x55, 0x43, 0x53, 0x31, 0x39, 0x30, 0x33], 0x02⟩, ⟨[0x57, 0x53, 0x32, 0x38, 0x31, 0x31], 0x03⟩,
   ⟨[0x57, 0x53, 0x32, 0x38, 0x30, 0x31], 0x04⟩, ⟨[0x53, 0x4b, 0x36, 0x38, 0x31, 0x32], 0x05⟩,
   ⟨[0x4c, 0x50, 0x44, 0x36, 0x38, 0x30, 0x33], 0x06⟩, ⟨[0x4c, 0x50, 0x44, 0x38, 0x38, 0x30, 0x36], 0x07⟩,
   ⟨[0x41, 0x50, 0x41, 0x31, 0x30, 0x32], 0x08⟩, ⟨[0x41, 0x50, 0x41, 0x31, 0x30, 0x35], 0x09⟩,
   ⟨[0x44, 0x4d, 0x58, 0x35, 0x31, 0x32], 0x0a⟩, ⟨[0x54, 0x4d, 0x31, 0x39, 0x31, 0x34], 0x0b⟩,
   ⟨[0x54, 0x4d, 0x31, 0x39, 0x31, 0x33], 0x0c⟩, ⟨[0x50, 0x39, 0x38, 0x31, 0x33], 0x0d⟩,
   ⟨[0x49, 0x4e, 0x4b, 0x31, 0x30, 0x30, 0x33], 0x0e⟩, ⟨[0x50, 0x39, 0x34, 0x33, 0x53], 0x0f⟩,
   ⟨[0x50, 0x39, 0x34, 0x31, 0x31], 0x10⟩, ⟨[0x50, 0x39, 0x34, 0x31, 0x33], 0x11⟩,
   ⟨[0x54, 0x58, 0x31, 0x38, 0x31, 0x32], 0x12⟩, ⟨[0x54, 0x58, 0x31, 0x38, 0x31, 0x33], 0x13⟩,
   ⟨[0x47, 0x53, 0x38, 0x32, 0x30, 0x36], 0x14⟩, ⟨[0x47, 0x53, 0x38, 0x32, 0x30, 0x38], 0x15⟩,
   ⟨[0x53, 0x4b, 0x39, 0x38, 0x32, 0x32], 0x16⟩, ⟨[0x54, 0x4d, 0x31, 0x38, 0x31, 0x34], 0x17⟩,
   ⟨[0x53, 0x4b, 0x36, 0x38, 0x31, 0x32, 0x5f, 0x52, 0x47, 0x42, 0x57], 0x18⟩,
   ⟨[0x50, 0x39, 0x34, 0x31, 0x34], 0x19⟩, ⟨[0x50, 0x39, 0x34, 0x31, 0x32], 0x1a⟩] := rfl

theorem ascii_meteor : ascii "meteor" = [0x6d, 0x65, 0x74, 0x65, 0x6f, 0x72] := rfl

theorem ascii_GRB : ascii "GRB" = [0x47, 0x52, 0x42] := rfl

theorem ascii_WS2811 : ascii "WS2811" = [0x57, 0x53, 0x32, 0x38, 0x31, 0x31] := rfl

theorem ascii_APA102 : ascii "APA102" = [0x41, 0x50, 0x41, 0x31, 0x30, 0x32] := rfl

theorem colourOrders_eq : colourOrders =
    [[0x52, 0x47, 0x42], [0x52, 0x42, 0x47], [0x47, 0x52, 0x42], [0x47, 0x42, 0x52], [0x42, 0x52, 0x47],
      [0x42, 0x47, 0x52]] := rfl

end Sys2Proof
end

