-- ==== Sys2Proof/Laws/Memory.lean ====
section
/-! SUPPORT. The buffers: every operation keeps the canonical form, a read after a write, and a buffer loaded with a
byte sequence. -/

namespace Sys2Proof.Machine

theorem Memory.byteAt_writeByte (m : Memory) (a : Nat) (b : Byte) (i : Nat) (h : Memory.wf m = true) :
    Memory.byteAt (Memory.writeByte m a b) i = if i = a then some b else Memory.byteAt m i := by
  induction m with
  | nil => simp [Memory.writeByte, Memory.byteAt, eq_comm]
  | cons c rest ih =>
    obtain ⟨k, x⟩ := c
    have hr : Memory.wf rest = true := by
      cases rest with
      | nil => rfl
      | cons y rest => simp only [Memory.wf, Bool.and_eq_true] at h; exact h.2
    simp only [Memory.writeByte]
    split
    · simp only [Memory.byteAt]
      grind
    · split
      · simp only [Memory.byteAt]
        grind
      · simp only [Memory.byteAt, ih hr]
        grind

/-- The head's offset after a write, which is what the canonical form compares. -/
theorem Memory.wf_cons_writeByte {k : Nat} {x : Byte} {m : Memory} {a : Nat} {b : Byte}
    (h : Memory.wf ((k, x) :: m) = true) (ha : k < a) (hw : Memory.wf (Memory.writeByte m a b) = true) :
    Memory.wf ((k, x) :: Memory.writeByte m a b) = true := by
  cases m with
  | nil => simp [Memory.writeByte, Memory.wf, ha]
  | cons y rest =>
    obtain ⟨j, y⟩ := y
    simp only [Memory.wf, Bool.and_eq_true, decide_eq_true_eq] at h
    simp only [Memory.writeByte] at hw ⊢
    split at hw <;> rename_i h1
    · rw [if_pos h1]
      simp only [Memory.wf, Bool.and_eq_true, decide_eq_true_eq] at hw ⊢
      exact ⟨ha, hw⟩
    · split at hw <;> rename_i h2
      · rw [if_neg h1, if_pos h2]
        simp only [Memory.wf, Bool.and_eq_true, decide_eq_true_eq]
        exact ⟨ha, hw⟩
      · rw [if_neg h1, if_neg h2]
        simp only [Memory.wf, Bool.and_eq_true, decide_eq_true_eq]
        exact ⟨h.1, hw⟩

theorem Memory.wf_writeByte (m : Memory) (a : Nat) (b : Byte) (h : Memory.wf m = true) :
    Memory.wf (Memory.writeByte m a b) = true := by
  induction m with
  | nil => rfl
  | cons c rest ih =>
    obtain ⟨k, x⟩ := c
    have hr : Memory.wf rest = true := by
      cases rest with
      | nil => rfl
      | cons y rest => simp only [Memory.wf, Bool.and_eq_true] at h; exact h.2
    by_cases h1 : a < k
    · simp only [Memory.writeByte, if_pos h1, Memory.wf, Bool.and_eq_true, decide_eq_true_eq]
      exact ⟨h1, h⟩
    · by_cases h2 : a = k
      · subst h2
        simp only [Memory.writeByte, Nat.lt_irrefl, if_false, if_true]
        cases rest with
        | nil => rfl
        | cons y rest => exact h
      · have h3 : k < a := by omega
        simpa only [Memory.writeByte, if_neg h1, if_neg h2] using Memory.wf_cons_writeByte h h3 (ih hr)

theorem Memory.wf_writeBytes (m : Memory) (off : Nat) (s : List Byte) (h : Memory.wf m = true) :
    Memory.wf (Memory.writeBytes m off s) = true := by
  induction s generalizing m off with
  | nil => exact h
  | cons b rest ih => exact ih _ _ (Memory.wf_writeByte m off b h)

theorem Memory.wf_write (m : Memory) (off n v : Nat) (h : Memory.wf m = true) :
    Memory.wf (Memory.write m off n v) = true := Memory.wf_writeBytes m off _ h

@[simp] theorem Memory.wf_ofBytes (s : List Byte) : Memory.wf (Memory.ofBytes s) = true :=
  Memory.wf_writeBytes [] 0 s rfl

theorem Memory.wf_driveFrame (m : Memory) (o : Byte) (p : List Byte) (h : Memory.wf m = true) :
    Memory.wf (driveFrame m o p) = true :=
  Memory.wf_write _ _ _ _ (Memory.wf_write _ _ _ _ (Memory.wf_write _ _ _ _ (Memory.wf_write _ _ _ _ h)))

/-- The memory of `State.reset` has the canonical form. -/
theorem Memory.wf_reset : Memory.wf State.reset.frame = true ∧ Memory.wf State.reset.raw = true := ⟨rfl, rfl⟩

theorem Memory.byteAt_writeBytes (m : Memory) (off : Nat) (s : List Byte) (i : Nat) (h : Memory.wf m = true) :
    Memory.byteAt (Memory.writeBytes m off s) i =
      if off ≤ i ∧ i < off + s.length then s[i - off]? else Memory.byteAt m i := by
  induction s generalizing m off with
  | nil => simp only [Memory.writeBytes, List.length_nil]; grind
  | cons b rest ih =>
    rw [Memory.writeBytes, ih _ _ (Memory.wf_writeByte m off b h), Memory.byteAt_writeByte m off b i h]
    by_cases h1 : i = off
    · subst h1; simp
    · by_cases h2 : off + 1 ≤ i ∧ i < off + 1 + rest.length
      · have h3 : off ≤ i ∧ i < off + (b :: rest).length := by simp; omega
        rw [if_pos h2, if_pos h3]
        obtain ⟨j, rfl⟩ : ∃ j, i = off + 1 + j := ⟨i - (off + 1), by omega⟩
        rw [show off + 1 + j - off = j + 1 by omega, show off + 1 + j - (off + 1) = j by omega]
        simp
      · have h3 : ¬(off ≤ i ∧ i < off + (b :: rest).length) := by simp; omega
        rw [if_neg h2, if_neg h3, if_neg h1]

/-- A buffer loaded with a byte sequence holds it, and nothing else. -/
@[simp] theorem Memory.byteAt_ofBytes (s : List Byte) (i : Nat) :
    Memory.byteAt (Memory.ofBytes s) i = s[i]? := by
  rw [Memory.ofBytes, Memory.byteAt_writeBytes [] 0 s i rfl]
  by_cases h : i < s.length
  · simp [h]
  · simp [h, Memory.byteAt]

/-- The bytes of a loaded buffer from an offset up, where it holds them all. -/
theorem Memory.bytesAt_ofBytes (s : List Byte) (off n : Nat) (h : off + n ≤ s.length) :
    Memory.bytesAt (Memory.ofBytes s) off n = some ((s.drop off).take n) := by
  induction n generalizing off with
  | zero => simp [Memory.bytesAt]
  | succ n ih =>
    have h1 : off < s.length := by omega
    rw [Memory.bytesAt, Memory.byteAt_ofBytes, ih (off + 1) (by omega), List.getElem?_eq_getElem h1]
    rw [List.drop_eq_getElem_cons h1, List.take_succ_cons]

theorem Memory.read_ofBytes (s : List Byte) (off n : Nat) (h : off + n ≤ s.length) :
    Memory.read (Memory.ofBytes s) off n = some (be ((s.drop off).take n)) := by
  rw [Memory.read, Memory.bytesAt_ofBytes s off n h]; rfl

/-- `FRAME` after the four writes of BUILD on an undriven buffer (41_frame_codec.md R100). -/
theorem driveFrame_nil {o : Byte} {p : List Byte} (h : p.length ≤ 3) :
    driveFrame [] o p = Memory.ofBytes (head :: pad3 p ++ [o, tail]) := by
  obtain ⟨a, b, c, hp⟩ : ∃ a b c, pad3 p = [a, b, c] := by
    rcases payload_cases h with rfl | ⟨c, rfl⟩ | ⟨b, c, rfl⟩ | ⟨a, b, c, rfl⟩
    exacts [⟨0, 0, 0, rfl⟩, ⟨0, 0, c, rfl⟩, ⟨0, b, c, rfl⟩, ⟨a, b, c, rfl⟩]
  rw [driveFrame, Memory.write, Memory.write, Memory.write, Memory.write, hp, bytesBE_one, bytesBE_one, bytesBE_one,
    payloadLen, bytesBE_three]
  rfl

end Sys2Proof.Machine
end

