-- ==== Sys2Proof/Laws/State.lean ====
section
/-! SUPPORT. One lemma per field per update of the state, so that no proof unfolds a record update. -/

namespace Sys2Proof.Machine

@[simp] theorem State.start_cfg (s : State) (raw : List Byte) : (s.start raw).cfg = s.cfg := rfl

@[simp] theorem State.start_inbox (s : State) (raw : List Byte) : (s.start raw).inbox = s.inbox := rfl

@[simp] theorem State.start_query (s : State) (raw : List Byte) : (s.start raw).query = s.query := rfl

@[simp] theorem State.start_frame (s : State) (raw : List Byte) : (s.start raw).frame = [] := rfl

@[simp] theorem State.start_raw (s : State) (raw : List Byte) : (s.start raw).raw = Memory.ofBytes raw := rfl

@[simp] theorem State.start_resp (s : State) (raw : List Byte) : (s.start raw).resp = s.resp := rfl

@[simp] theorem State.start_responses (s : State) (raw : List Byte) : (s.start raw).responses = s.responses := rfl

@[simp] theorem State.start_wire (s : State) (raw : List Byte) : (s.start raw).wire = s.wire := rfl

@[simp] theorem State.respond_cfg (s : State) (r : Response) : (s.respond r).cfg = s.cfg := rfl

@[simp] theorem State.respond_inbox (s : State) (r : Response) : (s.respond r).inbox = s.inbox := rfl

@[simp] theorem State.respond_query (s : State) (r : Response) : (s.respond r).query = s.query := rfl

@[simp] theorem State.respond_frame (s : State) (r : Response) : (s.respond r).frame = s.frame := rfl

@[simp] theorem State.respond_raw (s : State) (r : Response) : (s.respond r).raw = s.raw := rfl

@[simp] theorem State.respond_resp (s : State) (r : Response) : (s.respond r).resp = some r := rfl

@[simp] theorem State.respond_responses (s : State) (r : Response) : (s.respond r).responses = s.responses ++ [r] := rfl

@[simp] theorem State.respond_wire (s : State) (r : Response) : (s.respond r).wire = s.wire := rfl

@[simp] theorem State.raise_cfg (s : State) (e : Status) (info : Option Int) : (s.raise e info).cfg = s.cfg := rfl

@[simp] theorem State.raise_inbox (s : State) (e : Status) (info : Option Int) : (s.raise e info).inbox = s.inbox := rfl

@[simp] theorem State.raise_query (s : State) (e : Status) (info : Option Int) : (s.raise e info).query = s.query := rfl

@[simp] theorem State.raise_frame (s : State) (e : Status) (info : Option Int) : (s.raise e info).frame = [] := rfl

@[simp] theorem State.raise_raw (s : State) (e : Status) (info : Option Int) : (s.raise e info).raw = s.raw := rfl

@[simp] theorem State.raise_resp (s : State) (e : Status) (info : Option Int) : (s.raise e info).resp = some (errorResponse e info) := rfl

@[simp] theorem State.raise_responses (s : State) (e : Status) (info : Option Int) : (s.raise e info).responses = s.responses ++ [errorResponse e info] := rfl

@[simp] theorem State.raise_wire (s : State) (e : Status) (info : Option Int) : (s.raise e info).wire = s.wire := rfl

@[simp] theorem State.handOver_cfg (s : State) (f : List Byte) (q : Option Query) : (s.handOver f q).cfg = s.cfg := rfl

@[simp] theorem State.handOver_inbox (s : State) (f : List Byte) (q : Option Query) : (s.handOver f q).inbox = s.inbox := rfl

@[simp] theorem State.handOver_query (s : State) (f : List Byte) (q : Option Query) : (s.handOver f q).query = q.map fun q => ⟨q, s.wire.length⟩ := rfl

@[simp] theorem State.handOver_frame (s : State) (f : List Byte) (q : Option Query) : (s.handOver f q).frame = s.frame := rfl

@[simp] theorem State.handOver_raw (s : State) (f : List Byte) (q : Option Query) : (s.handOver f q).raw = s.raw := rfl

@[simp] theorem State.handOver_resp (s : State) (f : List Byte) (q : Option Query) : (s.handOver f q).resp = s.resp := rfl

@[simp] theorem State.handOver_responses (s : State) (f : List Byte) (q : Option Query) : (s.handOver f q).responses = s.responses := rfl

@[simp] theorem State.handOver_wire (s : State) (f : List Byte) (q : Option Query) : (s.handOver f q).wire = s.wire ++ [{ frame := f, expect := q.isSome, rspLen := rspLenOf q }] := rfl

@[simp] theorem State.doReset_cfg (s : State) : s.doReset.cfg = s.cfg := rfl

@[simp] theorem State.doReset_inbox (s : State) : s.doReset.inbox = s.inbox := rfl

@[simp] theorem State.doReset_query (s : State) : s.doReset.query = none := rfl

@[simp] theorem State.doReset_frame (s : State) : s.doReset.frame = [] := rfl

@[simp] theorem State.doReset_raw (s : State) : s.doReset.raw = [] := rfl

@[simp] theorem State.doReset_resp (s : State) : s.doReset.resp = none := rfl

@[simp] theorem State.doReset_responses (s : State) : s.doReset.responses = s.responses := rfl

@[simp] theorem State.doReset_wire (s : State) : s.doReset.wire = s.wire := rfl

@[simp] theorem answered_cfg (s : State) (fr : Memory) (raw : List Byte) (r : Response) :
    (answered s fr raw r).cfg =
      s.cfg := rfl

@[simp] theorem answered_inbox (s : State) (fr : Memory) (raw : List Byte) (r : Response) :
    (answered s fr raw r).inbox =
      s.inbox := rfl

@[simp] theorem answered_query (s : State) (fr : Memory) (raw : List Byte) (r : Response) :
    (answered s fr raw r).query =
      s.query := rfl

@[simp] theorem answered_frame (s : State) (fr : Memory) (raw : List Byte) (r : Response) :
    (answered s fr raw r).frame =
      fr := rfl

@[simp] theorem answered_raw (s : State) (fr : Memory) (raw : List Byte) (r : Response) :
    (answered s fr raw r).raw =
      Memory.ofBytes raw := rfl

@[simp] theorem answered_resp (s : State) (fr : Memory) (raw : List Byte) (r : Response) :
    (answered s fr raw r).resp =
      some r := rfl

@[simp] theorem answered_responses (s : State) (fr : Memory) (raw : List Byte) (r : Response) :
    (answered s fr raw r).responses =
      s.responses ++ [r] := rfl

@[simp] theorem answered_wire (s : State) (fr : Memory) (raw : List Byte) (r : Response) :
    (answered s fr raw r).wire =
      s.wire := rfl

@[simp] theorem raised_cfg (s : State) (raw : List Byte) (e : Status) (info : Option Int) :
    (raised s raw e info).cfg =
      s.cfg := rfl

@[simp] theorem raised_inbox (s : State) (raw : List Byte) (e : Status) (info : Option Int) :
    (raised s raw e info).inbox =
      s.inbox := rfl

@[simp] theorem raised_query (s : State) (raw : List Byte) (e : Status) (info : Option Int) :
    (raised s raw e info).query =
      s.query := rfl

@[simp] theorem raised_frame (s : State) (raw : List Byte) (e : Status) (info : Option Int) :
    (raised s raw e info).frame =
      [] := rfl

@[simp] theorem raised_raw (s : State) (raw : List Byte) (e : Status) (info : Option Int) :
    (raised s raw e info).raw =
      Memory.ofBytes raw := rfl

@[simp] theorem raised_resp (s : State) (raw : List Byte) (e : Status) (info : Option Int) :
    (raised s raw e info).resp =
      some { status := e, warnBits := warn000, info := info } := rfl

@[simp] theorem raised_responses (s : State) (raw : List Byte) (e : Status) (info : Option Int) :
    (raised s raw e info).responses =
      s.responses ++ [{ status := e, warnBits := warn000, info := info }] := rfl

@[simp] theorem raised_wire (s : State) (raw : List Byte) (e : Status) (info : Option Int) :
    (raised s raw e info).wire =
      s.wire := rfl

@[simp] theorem handedOver_cfg (s : State) (f : List Byte) (q : Option Query) (n : Nat) :
    (handedOver s f q n).cfg =
      s.cfg := rfl

@[simp] theorem handedOver_inbox (s : State) (f : List Byte) (q : Option Query) (n : Nat) :
    (handedOver s f q n).inbox =
      s.inbox := rfl

@[simp] theorem handedOver_query (s : State) (f : List Byte) (q : Option Query) (n : Nat) :
    (handedOver s f q n).query =
      q.map fun q => ⟨q, s.wire.length⟩ := rfl

@[simp] theorem handedOver_frame (s : State) (f : List Byte) (q : Option Query) (n : Nat) :
    (handedOver s f q n).frame =
      Memory.ofBytes f := rfl

@[simp] theorem handedOver_raw (s : State) (f : List Byte) (q : Option Query) (n : Nat) :
    (handedOver s f q n).raw =
      Memory.ofBytes [] := rfl

@[simp] theorem handedOver_resp (s : State) (f : List Byte) (q : Option Query) (n : Nat) :
    (handedOver s f q n).resp =
      some { status := .ok, warnBits := warn000, frame := some f, expect := some q.isSome, rspLen := some n } := rfl

@[simp] theorem handedOver_responses (s : State) (f : List Byte) (q : Option Query) (n : Nat) :
    (handedOver s f q n).responses =
      s.responses ++ [{ status := .ok, warnBits := warn000, frame := some f, expect := some q.isSome, rspLen := some n }] := rfl

@[simp] theorem handedOver_wire (s : State) (f : List Byte) (q : Option Query) (n : Nat) :
    (handedOver s f q n).wire =
      s.wire ++ [{ frame := f, expect := q.isSome, rspLen := n }] := rfl

@[simp] theorem completed_cfg (s : State) (raw : List Byte) (r : Response) : (completed s raw r).cfg = s.cfg := rfl

@[simp] theorem completed_inbox (s : State) (raw : List Byte) (r : Response) :
    (completed s raw r).inbox =
      s.inbox := rfl

@[simp] theorem completed_query (s : State) (raw : List Byte) (r : Response) : (completed s raw r).query = none := rfl

@[simp] theorem completed_frame (s : State) (raw : List Byte) (r : Response) : (completed s raw r).frame = [] := rfl

@[simp] theorem completed_raw (s : State) (raw : List Byte) (r : Response) :
    (completed s raw r).raw =
      Memory.ofBytes raw := rfl

@[simp] theorem completed_resp (s : State) (raw : List Byte) (r : Response) : (completed s raw r).resp = some r := rfl

@[simp] theorem completed_responses (s : State) (raw : List Byte) (r : Response) :
    (completed s raw r).responses =
      s.responses ++ [r] := rfl

@[simp] theorem completed_wire (s : State) (raw : List Byte) (r : Response) : (completed s raw r).wire = s.wire := rfl

@[simp] theorem cutShort_cfg (s : State) (raw : List Byte) : (cutShort s raw).cfg = s.cfg := rfl

@[simp] theorem cutShort_inbox (s : State) (raw : List Byte) : (cutShort s raw).inbox = s.inbox := rfl

@[simp] theorem cutShort_query (s : State) (raw : List Byte) : (cutShort s raw).query = none := rfl

@[simp] theorem cutShort_frame (s : State) (raw : List Byte) : (cutShort s raw).frame = [] := rfl

@[simp] theorem cutShort_raw (s : State) (raw : List Byte) : (cutShort s raw).raw = Memory.ofBytes raw := rfl

@[simp] theorem cutShort_resp (s : State) (raw : List Byte) :
    (cutShort s raw).resp =
      some { status := .malformedResponse, warnBits := warn000, info := some raw.length } := rfl

@[simp] theorem cutShort_responses (s : State) (raw : List Byte) :
    (cutShort s raw).responses =
      s.responses ++ [{ status := .malformedResponse, warnBits := warn000, info := some raw.length }] := rfl

@[simp] theorem cutShort_wire (s : State) (raw : List Byte) : (cutShort s raw).wire = s.wire := rfl

end Sys2Proof.Machine
end

