-- ==== Sys2Proof/Laws/Ops.lean ====
section
/-! SUPPORT. One lemma per shared operation that says once everything it can do; the proofs cite it and do not unfold
the operation. -/

namespace Sys2Proof.Machine

/-- A frame built from a payload of at most three bytes is a well-formed frame of 6 bytes. -/
theorem builtFrame_length {o : Byte} {p : List Byte} (h : p.length ≤ 3) :
    (head :: pad3 p ++ [o, tail]).length = 6 := by
  simp [pad3_length h]

/-- BUILD on an undriven `FRAME`: the frame driven and handed on, or `RangeError` on the length. -/
theorem withFrame_eq (o : Byte) (p : List Byte) (s : State) (k : List Byte → State → Result) (h : s.frame = []) :
    withFrame o p s k =
      if p.length ≤ 3 then
        k (head :: pad3 p ++ [o, tail]) { s with frame := Memory.ofBytes (head :: pad3 p ++ [o, tail]) }
      else .next (s.raise .rangeError (some p.length)) := by
  by_cases hp : p.length ≤ 3
  · have hl := builtFrame_length (o := o) hp
    rw [withFrame, if_neg (by simp [payloadLen]; omega), if_pos hp]
    simp only [h, driveFrame_nil hp]
    rw [Memory.bytesAt_ofBytes _ 0 frameLen (by rw [hl]; decide), fetched]
    rw [List.drop_zero, List.take_of_length_le (by rw [hl]; decide)]
  · rw [withFrame, if_pos (by simp [payloadLen]; omega), if_neg hp]

/-- Steps (4) and (5) of a format phase, for a payload of at most three bytes. -/
theorem emit_start {o : Byte} {p : List Byte} (q : Option Query) (s : State) (h : p.length ≤ 3) :
    emit o p q (s.start []) = .next (handedOver s (head :: pad3 p ++ [o, tail]) q (rspLenOf q)) := by
  rw [emit, withFrame_eq _ _ _ _ rfl, if_pos h]
  rfl

/-- The hand-over of a frame of form P0 (30_encoding.md R63). -/
theorem emit_p0 (o : Byte) (q : Option Query) (s : State) :
    emit o [] q (s.start []) = .next (handedOver s (frameBytes 0 0 0 o) q (rspLenOf q)) :=
  emit_start q s (Nat.zero_le 3)

/-- The hand-over of a frame of form P1 (30_encoding.md R63). -/
theorem emit_p1 (o c : Byte) (q : Option Query) (s : State) :
    emit o [c] q (s.start []) = .next (handedOver s (frameBytes 0 0 c o) q (rspLenOf q)) :=
  emit_start q s (show 1 ≤ 3 by decide)

/-- The hand-over of a frame of form P2 (30_encoding.md R63). -/
theorem emit_p2 (o b c : Byte) (q : Option Query) (s : State) :
    emit o [b, c] q (s.start []) = .next (handedOver s (frameBytes 0 b c o) q (rspLenOf q)) :=
  emit_start q s (show 2 ≤ 3 by decide)

/-- The hand-over of a frame of form P3 (30_encoding.md R63). -/
theorem emit_p3 (o a b c : Byte) (q : Option Query) (s : State) :
    emit o [a, b, c] q (s.start []) = .next (handedOver s (frameBytes a b c o) q (rspLenOf q)) :=
  emit_start q s (show 3 ≤ 3 by decide)

theorem raise_start (s : State) (raw : List Byte) (e : Status) (info : Option Int) :
    (s.start raw).raise e info = raised s raw e info := rfl

theorem respond_start (s : State) (raw : List Byte) (r : Response) : (s.start raw).respond r = answered s [] raw r := rfl

/-- A fixed-frame command hands over `38 00 00 00 OPC 83`. -/
theorem fixedCommand_eq (o : Byte) (q : Option Query) (s : State) :
    fixedCommand o q s = .next (handedOver s (frameBytes 0 0 0 o) q (rspLenOf q)) := by
  rw [fixedCommand, emit_p0]

/-- A value in range for its width is encoded; the inner ENC.W of a command "can then not raise"
(60_exceptions.md R171). -/
theorem encodeValue_of_lt {v w : Nat} (h : v < 256 ^ w) : encodeValue v w = some (bytesBE v w) := by
  rw [encodeValue, if_neg (by omega)]

theorem encodeValue_of_le {v w : Nat} (h : 256 ^ w ≤ v) : encodeValue v w = none := by
  rw [encodeValue, if_pos h]

/-- A value-carrying command: its frame, or its own `RangeError`. -/
theorem valueCommand_eq {lo hi n bias : Int} {w : Nat} (o : Byte) (s : State) (hw : w ≤ 3)
    (hfit : ∀ m, lo ≤ m → m ≤ hi → (m - bias).toNat < 256 ^ w) :
    valueCommand lo hi n bias w o s =
      if lo ≤ n ∧ n ≤ hi then
        .next (handedOver s (head :: pad3 (bytesBE (n - bias).toNat w) ++ [o, tail]) none 0)
      else .next (raised s [] .rangeError (some n)) := by
  by_cases h : lo ≤ n ∧ n ≤ hi
  · rw [valueCommand, withRange, if_neg (by omega), withEncoded, encodeValue_of_lt (hfit n h.1 h.2), if_pos h]
    exact emit_start none s (by simpa using hw)
  · rw [valueCommand, withRange, if_pos (by omega), if_neg h]
    rfl

/-- A completion phase: cut short, or its result with `RAW` loaded and no query in progress. -/
theorem withResponse_eq (q : Query) (raw : List Byte) (s : State) (k : State → Result) :
    withResponse q raw s k =
      if raw.length < q.rspLen then .next (cutShort s raw) else k { s.start raw with query := none } := rfl

/-- A forward lookup: the code of the entry found, or `NotFound`. -/
theorem nameToCode_eq (t : EnumTable) (name : Name) (s : State) :
    nameToCode t name s =
      match lookupFwd t name with
      | some c => .next (answered s [] [] { status := .ok, warnBits := warn000, code := some c })
      | none => .next (raised s [] .notFound none) := rfl

/-- A reverse lookup always answers. -/
theorem codeToName_eq (v : EnumVal) (w : Warn) (s : State) :
    codeToName v w s = .next (answered s [] []
      { status := .ok, warnBits := w, code := some v.code, known := some v.isKnown, name := v.name }) := rfl

/-- Reading the buffer of an operand that is long enough never meets an offset that does not exist. -/
theorem fetched_ofBytes (raw : List Byte) (n : Nat) (k : List Byte → Result) (h : n ≤ raw.length) :
    fetched (Memory.bytesAt (Memory.ofBytes raw) 0 n) k = k (raw.take n) := by
  rw [Memory.bytesAt_ofBytes raw 0 n (by omega), fetched, List.drop_zero]

end Sys2Proof.Machine
end

