-- ==== Sys2Proof/Laws/Dispatch.lean ====
section
/-! SUPPORT. The arms of `exec`, one lemma each, so that no proof unfolds the whole match. -/

namespace Sys2Proof.Machine

@[simp] theorem exec_encMin (value : Nat) (s : State) : exec (.encMin value) s = execEncMin value s := rfl

@[simp] theorem exec_encW (value : Nat) (width : Nat) (s : State) :
    exec (.encW value width) s = execEncW value width s := rfl

@[simp] theorem exec_build (opcode : Byte) (payload : List Byte) (s : State) :
    exec (.build opcode payload) s = execBuild opcode payload s := rfl

@[simp] theorem exec_parse (raw : List Byte) (s : State) : exec (.parse raw) s = execParse raw s := rfl

@[simp] theorem exec_n2cAnim (name : Name) (s : State) : exec (.n2cAnim name) s = execN2cAnim name s := rfl

@[simp] theorem exec_n2cChip (name : Name) (s : State) : exec (.n2cChip name) s = execN2cChip name s := rfl

@[simp] theorem exec_n2cOrder (name : Name) (s : State) : exec (.n2cOrder name) s = execN2cOrder name s := rfl

@[simp] theorem exec_c2nAnim (code : Byte) (s : State) : exec (.c2nAnim code) s = execC2nAnim code s := rfl

@[simp] theorem exec_c2nChip (code : Byte) (s : State) : exec (.c2nChip code) s = execC2nChip code s := rfl

@[simp] theorem exec_c2nOrder (code : Byte) (s : State) : exec (.c2nOrder code) s = execC2nOrder code s := rfl

@[simp] theorem exec_cmdIsReady (raw : Option (List Byte)) (s : State) :
    exec (.cmdIsReady raw) s = execCmdIsReady raw s := rfl

@[simp] theorem exec_cmdSetPower (on : Bool) (s : State) : exec (.cmdSetPower on) s = execCmdSetPower on s := rfl

@[simp] theorem exec_cmdSetColor (rgb : Int) (s : State) : exec (.cmdSetColor rgb) s = execCmdSetColor rgb s := rfl

@[simp] theorem exec_cmdSetSpeed (n : Int) (s : State) : exec (.cmdSetSpeed n) s = execCmdSetSpeed n s := rfl

@[simp] theorem exec_cmdSetBright (n : Int) (s : State) : exec (.cmdSetBright n) s = execCmdSetBright n s := rfl

@[simp] theorem exec_cmdSetWhite (n : Option Int) (s : State) : exec (.cmdSetWhite n) s = execCmdSetWhite n s := rfl

@[simp] theorem exec_cmdSetSegs (n : Option Int) (s : State) : exec (.cmdSetSegs n) s = execCmdSetSegs n s := rfl

@[simp] theorem exec_cmdSetLeds (n : Option Int) (s : State) : exec (.cmdSetLeds n) s = execCmdSetLeds n s := rfl

@[simp] theorem exec_cmdSetMono (code : Byte) (s : State) : exec (.cmdSetMono code) s = execCmdSetMono code s := rfl

@[simp] theorem exec_cmdSetMixed (index : Int) (s : State) :
    exec (.cmdSetMixed index) s = execCmdSetMixed index s := rfl

@[simp] theorem exec_cmdAutoMode (s : State) : exec .cmdAutoMode s = execCmdAutoMode s := rfl

@[simp] theorem exec_cmdToggle (s : State) : exec .cmdToggle s = execCmdToggle s := rfl

@[simp] theorem exec_cmdGetName (raw : Option (List Byte)) (s : State) :
    exec (.cmdGetName raw) s = execCmdGetName raw s := rfl

@[simp] theorem exec_cmdGetRaw (raw : Option (List Byte)) (s : State) :
    exec (.cmdGetRaw raw) s = execCmdGetRaw raw s := rfl

@[simp] theorem exec_cmdGetSettings (raw : Option (List Byte)) (s : State) :
    exec (.cmdGetSettings raw) s = execCmdGetSettings raw s := rfl

@[simp] theorem exec_fIsReady (s : State) : exec .fIsReady s = execFIsReady s := rfl

@[simp] theorem exec_fToggle (s : State) : exec .fToggle s = execFToggle s := rfl

@[simp] theorem exec_fSetColor (r : Byte) (g : Byte) (b : Byte) (s : State) :
    exec (.fSetColor r g b) s = execFSetColor r g b s := rfl

@[simp] theorem exec_fSetSpeed (v : Byte) (s : State) : exec (.fSetSpeed v) s = execFSetSpeed v s := rfl

@[simp] theorem exec_fSetBright (v : Byte) (s : State) : exec (.fSetBright v) s = execFSetBright v s := rfl

@[simp] theorem exec_fSetWhite (v : Byte) (s : State) : exec (.fSetWhite v) s = execFSetWhite v s := rfl

@[simp] theorem exec_fSetSegs (h : Byte) (l : Byte) (s : State) : exec (.fSetSegs h l) s = execFSetSegs h l s := rfl

@[simp] theorem exec_fSetLeds (h : Byte) (l : Byte) (s : State) : exec (.fSetLeds h l) s = execFSetLeds h l s := rfl

@[simp] theorem exec_fSetAnim (v : Byte) (s : State) : exec (.fSetAnim v) s = execFSetAnim v s := rfl

@[simp] theorem exec_fAutoMode (s : State) : exec .fAutoMode s = execFAutoMode s := rfl

@[simp] theorem exec_fGetName (s : State) : exec .fGetName s = execFGetName s := rfl

@[simp] theorem exec_fGetSettings (s : State) : exec .fGetSettings s = execFGetSettings s := rfl

end Sys2Proof.Machine
end

