-- ==== Sys2Proof/Laws/Exec.lean ====
section
/-! SUPPORT. What the searches and PARSE give, once. -/

namespace Sys2Proof.Machine

/-! ### The searches -/

theorem lookupRev_isSome (t : EnumTable) (c : Byte) : (lookupRev t c).isSome = hasCode t c := by
  rw [lookupRev, hasCode, Option.isSome_map, Bool.eq_iff_iff, List.find?_isSome, List.any_eq_true]

/-- An enumeration value is known exactly when its code is in the table. -/
theorem decodeEnum_isKnown (t : EnumTable) (c : Byte) : (decodeEnum t c).isKnown = hasCode t c := by
  rw [← lookupRev_isSome, decodeEnum]
  cases lookupRev t c <;> rfl

@[simp] theorem decodeEnum_code (t : EnumTable) (c : Byte) : (decodeEnum t c).code = c := by
  rw [decodeEnum]
  cases lookupRev t c <;> rfl

theorem decodeEnum_name (t : EnumTable) (c : Byte) : (decodeEnum t c).name = lookupRev t c := by
  rw [decodeEnum]
  cases lookupRev t c <;> rfl

/-- A name is valid only when the value is known. -/
theorem EnumVal.name_isSome (v : EnumVal) : v.name.isSome = v.isKnown := by cases v <;> rfl

/-! ### PARSE -/

theorem ofNat_two (a b : Byte) : BitVec.ofNat 16 (be [a, b]) = a ++ b := by
  apply BitVec.eq_of_toNat_eq
  have ha := a.isLt
  have hb := b.isLt
  simp only [be, List.foldl, BitVec.toNat_ofNat, BitVec.toNat_append]
  rw [Nat.shiftLeft_eq, Nat.mul_comm a.toNat (2 ^ 8), ← Nat.two_pow_add_eq_or_of_lt hb]
  omega

/-- A one-byte read of a loaded buffer. -/
theorem read_one (raw : List Byte) (off : Nat) (h : off < raw.length) :
    Memory.read (Memory.ofBytes raw) off 1 = some (raw.getD off 0).toNat := by
  rw [Memory.read_ofBytes raw off 1 (by omega), List.drop_eq_getElem_cons h, List.take_succ_cons, List.take_zero,
    be_singleton, ← List.getD_eq_getElem raw 0 h]

/-- A two-byte read of a loaded buffer, big-endian. -/
theorem read_two (raw : List Byte) (off : Nat) (h : off + 1 < raw.length) :
    Memory.read (Memory.ofBytes raw) off 2 = some (be [raw.getD off 0, raw.getD (off + 1) 0]) := by
  rw [Memory.read_ofBytes raw off 2 (by omega), List.drop_eq_getElem_cons (by omega : off < raw.length),
    List.drop_eq_getElem_cons h, List.take_succ_cons, List.take_succ_cons, List.take_zero,
    ← List.getD_eq_getElem raw 0 h, ← List.getD_eq_getElem raw 0 (by omega : off < raw.length)]

theorem byteAt_some (raw : List Byte) (off : Nat) (h : off < raw.length) :
    Memory.byteAt (Memory.ofBytes raw) off = some (raw.getD off 0) := by
  simp [h]

/-- "0 = off, nonzero = on" (20_memory.md R49). -/
theorem toNat_bne_zero (b : Byte) : (b.toNat != 0) = (b != 0) := by
  rw [Bool.eq_iff_iff, bne_iff_ne, bne_iff_ne, Ne, Ne, BitVec.toNat_eq]
  rfl

/-- The eleven fields of a status response (20_memory.md R49). -/
theorem parseSettings_ofBytes (t : EnumTables) (raw : List Byte) (h : 17 ≤ raw.length) :
    parseSettings t (Memory.ofBytes raw) = some (settingsFrom t raw) := by
  have h1 (k : Nat) (hk : k < 17) := read_one raw k (by omega)
  have h2 (k : Nat) (hk : k < 16) := read_two raw k (by omega)
  have h3 (k : Nat) (hk : k < 17) := byteAt_some raw k (by omega)
  rw [parseSettings, h1 1 (by decide), h1 2 (by decide), h1 3 (by decide), h1 4 (by decide), h1 5 (by decide),
    h2 6 (by decide), h2 8 (by decide), h3 10 (by decide), h3 11 (by decide), h3 12 (by decide),
    h1 13 (by decide), h1 14 (by decide), h1 15 (by decide)]
  simp only [Option.bind_eq_bind, Option.bind_some, ofNat_two, BitVec.ofNat_toNat, BitVec.setWidth_eq, toNat_bne_zero,
    settingsFrom]
  rfl

/-- The warnings of a record are the unknown codes of its bytes. -/
theorem settingsWarn_settingsFrom (t : EnumTables) (raw : List Byte) :
    settingsWarn (settingsFrom t raw) = unknownIn t raw := by
  simp only [settingsWarn, settingsFrom, unknownIn, decodeEnum_isKnown]

/-- PARSE of a loaded buffer that is long enough. -/
theorem parseRaw_eq (s : State) (raw : List Byte) (hr : s.raw = Memory.ofBytes raw) (h : 17 ≤ raw.length) :
    parseRaw s = .next (s.respond (parsedResponse s.cfg.tables raw)) := by
  rw [parseRaw, hr, parseSettings_ofBytes _ _ h, fetched, settingsWarn_settingsFrom]
  rfl

end Sys2Proof.Machine
end

