-- ==== Sys2Proof/Laws/Shapes.lean ====
section
/-! SUPPORT. The three shapes of next state: every instruction answers, hands over a frame, or completes a query. Whole
machine rules are proved over these three cases and not over the 37 instructions. -/

namespace Sys2Proof.Machine

/-- A response that hands nothing over: an error, or results without `rsp_len`. -/
def plainResponse (r : Response) : Prop := responseWf r ∧ r.rspLen = none ∧ r.expect = none

/-- `FRAME` after an operation that gives the response `r`. -/
def frameOk (fr : Memory) (r : Response) : Prop :=
  fr = [] ∨ ∃ f, r.status = .ok ∧ r.frame = some f ∧ f.length = 6 ∧ fr = Memory.ofBytes f

/-- What an instruction that gives `res` from `s` may have done. -/
inductive Shape (s : State) (res : Result) : Prop where
  /-- It answered. -/
  | answers (fr : Memory) (raw : List Byte) (r : Response) (h : res = .next (answered s fr raw r))
      (hr : plainResponse r) (hf : frameOk fr r)
  /-- It handed over a frame of kind `k`. -/
  | hands (k : FrameKind) (a b c : Byte) (q : Option Query) (hk : k.form.fits a b c = true)
      (h : res = .next (handedOver s (frameBytes a b c (k.opcode s.cfg.opcodes)) q (kindRspLen k)))
      (he : q.isSome = (kindRspLen k != 0)) (hq : ∀ q', q = some q' → q'.rspLen = kindRspLen k)
  /-- It completed a query. -/
  | completes (raw : List Byte) (r : Response) (h : res = .next (completed s raw r)) (hr : plainResponse r)
      (hf : r.frame = none)

theorem plain_error (e : Status) (info : Option Int) (h : e ≠ .ok) :
    plainResponse { status := e, warnBits := warn000, info := info } := by
  simp [plainResponse, responseWf, h]

/-- A normal response without a frame and without a name. -/
theorem plain_ok (r : Response) (hs : r.status = .ok) (hi : r.info = none) (hf : r.frame = none)
    (hl : r.rspLen = none) (he : r.expect = none) (hn : r.name = none) (hk : r.known = none) :
    plainResponse r := by
  refine ⟨⟨fun h => absurd hs h, fun _ => hi, ?_, ?_, ?_⟩, hl, he⟩
  · intro f h; rw [hf] at h; cases h
  · intro n h; rw [hl] at h; cases h
  · rw [hn, hk]; simp

/-- `raise` is an answer. -/
theorem Shape.of_raised (s : State) (raw : List Byte) (e : Status) (info : Option Int) (h : e ≠ .ok) :
    Shape s (.next (raised s raw e info)) :=
  .answers [] raw _ rfl (plain_error e info h) (.inl rfl)

/-- A completion phase cut short is a completion. -/
theorem Shape.of_cutShort (s : State) (raw : List Byte) : Shape s (.next (cutShort s raw)) :=
  .completes raw { status := .malformedResponse, warnBits := warn000, info := some raw.length } rfl
    (plain_error _ _ (by decide)) rfl

/-- A result without a frame is an answer. -/
theorem Shape.of_answered (s : State) (raw : List Byte) (r : Response) (hr : plainResponse r) :
    Shape s (.next (answered s [] raw r)) := .answers [] raw r rfl hr (.inl rfl)

/-- The frame of a command that is no query. -/
theorem Shape.of_command (s : State) (k : FrameKind) (a b c : Byte) (hk : k.form.fits a b c = true)
    (hn : kindRspLen k = 0) :
    Shape s (.next (handedOver s (frameBytes a b c (k.opcode s.cfg.opcodes)) none 0)) :=
  .hands k a b c none hk (by rw [hn]) (by rw [hn]; rfl) (by intro _ h; cases h)

/-- The frame of a query. -/
theorem Shape.of_query (s : State) (k : FrameKind) (q : Query) (hk : k.form.fits 0 0 0 = true)
    (hn : q.rspLen = kindRspLen k) :
    Shape s (.next (handedOver s (frameBytes 0 0 0 (k.opcode s.cfg.opcodes)) (some q) (rspLenOf (some q)))) := by
  refine .hands k 0 0 0 (some q) hk ?_ ?_ ?_
  · rw [← hn]; rfl
  · rw [← hn]; cases q <;> rfl
  · rintro _ ⟨⟩; exact hn

/-- A value-carrying command of form P1, P2 or P3. -/
theorem Shape.of_valueCommand (s : State) (k : FrameKind) {lo hi n bias : Int} {w : Nat} (hw : w ≤ 3)
    (hfit : ∀ m, lo ≤ m → m ≤ hi → (m - bias).toNat < 256 ^ w)
    (hk : ∀ p : List Byte, p.length = w → ∃ a b c, pad3 p = [a, b, c] ∧ k.form.fits a b c = true)
    (hn : kindRspLen k = 0) : Shape s (valueCommand lo hi n bias w (k.opcode s.cfg.opcodes) s) := by
  rw [valueCommand_eq _ s hw hfit]
  split
  · obtain ⟨a, b, c, hp, hf⟩ := hk (bytesBE (n - bias).toNat w) (bytesBE_length _ _)
    rw [hp]
    exact Shape.of_command s k a b c hf hn
  · exact Shape.of_raised s [] _ _ (by decide)

theorem pad3_form1 {k : FrameKind} (hk : k.form = .p1) (p : List Byte) (h : p.length = 1) :
    ∃ a b c, pad3 p = [a, b, c] ∧ k.form.fits a b c = true := by
  obtain ⟨c, rfl⟩ := List.length_eq_one_iff.1 h
  exact ⟨0, 0, c, rfl, by rw [hk]; rfl⟩

theorem pad3_form2 {k : FrameKind} (hk : k.form = .p2) (p : List Byte) (h : p.length = 2) :
    ∃ a b c, pad3 p = [a, b, c] ∧ k.form.fits a b c = true := by
  obtain ⟨b, c, rfl⟩ := List.length_eq_two.1 h
  exact ⟨0, b, c, rfl, by rw [hk]; rfl⟩

theorem pad3_form3 {k : FrameKind} (hk : k.form = .p3) (p : List Byte) (h : p.length = 3) :
    ∃ a b c, pad3 p = [a, b, c] ∧ k.form.fits a b c = true := by
  obtain ⟨a, b, c, rfl⟩ := List.length_eq_three.1 h
  exact ⟨a, b, c, rfl, by rw [hk]; rfl⟩

theorem Shape.of_nameToCode (t : EnumTable) (n : Name) (s : State) : Shape s (nameToCode t n s) := by
  rw [nameToCode_eq]
  split
  · exact Shape.of_answered s [] _ (plain_ok _ rfl rfl rfl rfl rfl rfl rfl)
  · exact Shape.of_raised s [] _ _ (by decide)

theorem Shape.of_codeToName (v : EnumVal) (w : Warn) (s : State) : Shape s (codeToName v w s) := by
  rw [codeToName_eq]
  exact Shape.of_answered s [] _ (by cases v <;> simp [plainResponse, responseWf, EnumVal.name, EnumVal.isKnown])

/-- A completion phase whose result is a plain response. -/
theorem Shape.of_withResponse (s : State) (q : Query) (raw : List Byte) (k : State → Result) (r : Response)
    (hk : q.rspLen ≤ raw.length → k { s.start raw with query := none } = .next (completed s raw r))
    (hr : plainResponse r) (hf : r.frame = none) : Shape s (withResponse q raw s k) := by
  rw [withResponse_eq]
  split
  · exact Shape.of_cutShort s raw
  · exact .completes raw r (hk (by omega)) hr hf

theorem plain_parsed (t : EnumTables) (raw : List Byte) : plainResponse (parsedResponse t raw) :=
  plain_ok _ rfl rfl rfl rfl rfl rfl rfl

/-- Every instruction has one of the three shapes, from every state. -/
theorem exec_shape (i : Instr) (s : State) : Shape s (exec i s) := by
  cases i with
  | encMin v => exact Shape.of_answered s [] _ (plain_ok _ rfl rfl rfl rfl rfl rfl rfl)
  | encW v w =>
    rw [exec_encW, execEncW, withEncoded]
    split
    · exact Shape.of_answered s [] _ (plain_ok _ rfl rfl rfl rfl rfl rfl rfl)
    · exact Shape.of_raised s [] _ _ (by decide)
  | build o p =>
    rw [exec_build, execBuild, withFrame_eq _ _ _ _ rfl]
    split
    · rename_i hp
      have hl := builtFrame_length (o := o) hp
      refine .answers _ [] _ rfl ?_ (.inr ⟨_, rfl, rfl, hl, rfl⟩)
      obtain ⟨a, b, c, hq⟩ : ∃ a b c, pad3 p = [a, b, c] := List.length_eq_three.1 (pad3_length hp)
      simp [plainResponse, responseWf, okResponse, wellFormedFrame, hq, frameLen]
    · exact Shape.of_raised s [] _ _ (by decide)
  | parse raw =>
    simp only [exec_parse, execParse]
    split
    · exact Shape.of_raised s raw _ _ (by decide)
    · rename_i h
      rw [parseRaw_eq _ raw rfl (by simpa [settingsLen] using h)]
      exact Shape.of_answered s raw _ (plain_parsed _ _)
  | n2cAnim n => exact Shape.of_nameToCode _ n s
  | n2cChip n => exact Shape.of_nameToCode _ n s
  | n2cOrder n => exact Shape.of_nameToCode _ n s
  | c2nAnim c => exact Shape.of_codeToName _ _ s
  | c2nChip c => exact Shape.of_codeToName _ _ s
  | c2nOrder c => exact Shape.of_codeToName _ _ s
  | cmdIsReady raw =>
    cases raw with
    | none =>
      rw [exec_cmdIsReady, execCmdIsReady, fixedCommand_eq]
      exact Shape.of_query s .isReady .isReady rfl rfl
    | some raw =>
      rw [exec_cmdIsReady, execCmdIsReady]
      refine Shape.of_withResponse s .isReady raw _
        { status := .ok, warnBits := warn000, readyByte := some (raw.getD 0 0) } (fun h => ?_)
        (plain_ok _ rfl rfl rfl rfl rfl rfl rfl) rfl
      simp only [State.start_raw]
      rw [byteAt_some raw 0 h]
      rfl
  | cmdSetPower on =>
    rw [exec_cmdSetPower, execCmdSetPower, fixedCommand_eq]
    exact Shape.of_command s .toggle 0 0 0 rfl rfl
  | cmdSetColor n => exact Shape.of_valueCommand s .setColor (by decide) (by simp [rgbMax]; omega) (pad3_form3 rfl) rfl
  | cmdSetSpeed n => exact Shape.of_valueCommand s .setSpeed (by decide) (by simp [byteMax]; omega) (pad3_form1 rfl) rfl
  | cmdSetBright n => exact Shape.of_valueCommand s .setBright (by decide) (by simp [byteMax]; omega) (pad3_form1 rfl) rfl
  | cmdSetWhite n => exact Shape.of_valueCommand s .setWhite (by decide) (by simp [byteMax]; omega) (pad3_form1 rfl) rfl
  | cmdSetSegs n => exact Shape.of_valueCommand s .setSegs (by decide) (by simp [wordMax]; omega) (pad3_form2 rfl) rfl
  | cmdSetLeds n => exact Shape.of_valueCommand s .setLeds (by decide) (by simp [wordMax]; omega) (pad3_form2 rfl) rfl
  | cmdSetMono c =>
    rw [exec_cmdSetMono, execCmdSetMono, emit_p1]
    exact Shape.of_command s .setAnim 0 0 c rfl rfl
  | cmdSetMixed n =>
    exact Shape.of_valueCommand s .setAnim (by decide) (by simp [mixedMin, mixedMax]; omega) (pad3_form1 rfl) rfl
  | cmdAutoMode =>
    rw [exec_cmdAutoMode, execCmdAutoMode, fixedCommand_eq]
    exact Shape.of_command s .autoMode 0 0 0 rfl rfl
  | cmdToggle =>
    rw [exec_cmdToggle, execCmdToggle, fixedCommand_eq]
    exact Shape.of_command s .toggle 0 0 0 rfl rfl
  | cmdGetName raw =>
    cases raw with
    | none =>
      rw [exec_cmdGetName, execCmdGetName, fixedCommand_eq]
      exact Shape.of_query s .getName .getName rfl rfl
    | some raw =>
      rw [exec_cmdGetName, execCmdGetName]
      refine Shape.of_withResponse s .getName raw _
        { status := .ok, warnBits := warn000, nameBytes := some (raw.take 18) } (fun h => ?_)
        (plain_ok _ rfl rfl rfl rfl rfl rfl rfl) rfl
      simp only [State.start_raw]
      rw [fetched_ofBytes raw nameLen _ h]
      rfl
  | cmdGetRaw raw =>
    cases raw with
    | none =>
      rw [exec_cmdGetRaw, execCmdGetRaw, fixedCommand_eq]
      exact Shape.of_query s .getSettings .getRaw rfl rfl
    | some raw =>
      rw [exec_cmdGetRaw, execCmdGetRaw]
      refine Shape.of_withResponse s .getRaw raw _
        { status := .ok, warnBits := warn000, rawOut := some (raw.take 17) } (fun h => ?_)
        (plain_ok _ rfl rfl rfl rfl rfl rfl rfl) rfl
      simp only [State.start_raw]
      rw [fetched_ofBytes raw settingsLen _ h]
      rfl
  | cmdGetSettings raw =>
    cases raw with
    | none =>
      rw [exec_cmdGetSettings, execCmdGetSettings, fixedCommand_eq]
      exact Shape.of_query s .getSettings .getSettings rfl rfl
    | some raw =>
      rw [exec_cmdGetSettings, execCmdGetSettings]
      refine Shape.of_withResponse s .getSettings raw _ _ (fun h => ?_) (plain_parsed s.cfg.tables raw) rfl
      rw [parseRaw_eq _ raw rfl h]
      rfl
  | fIsReady =>
    rw [exec_fIsReady, execFIsReady, emit_p0]
    exact Shape.of_query s .isReady .isReady rfl rfl
  | fToggle =>
    rw [exec_fToggle, execFToggle, emit_p0]
    exact Shape.of_command s .toggle 0 0 0 rfl rfl
  | fSetColor r g b =>
    rw [exec_fSetColor, execFSetColor, emit_p3]
    exact Shape.of_command s .setColor r g b rfl rfl
  | fSetSpeed v =>
    rw [exec_fSetSpeed, execFSetSpeed, emit_p1]
    exact Shape.of_command s .setSpeed 0 0 v rfl rfl
  | fSetBright v =>
    rw [exec_fSetBright, execFSetBright, emit_p1]
    exact Shape.of_command s .setBright 0 0 v rfl rfl
  | fSetWhite v =>
    rw [exec_fSetWhite, execFSetWhite, emit_p1]
    exact Shape.of_command s .setWhite 0 0 v rfl rfl
  | fSetSegs h l =>
    rw [exec_fSetSegs, execFSetSegs, emit_p2]
    exact Shape.of_command s .setSegs 0 h l rfl rfl
  | fSetLeds h l =>
    rw [exec_fSetLeds, execFSetLeds, emit_p2]
    exact Shape.of_command s .setLeds 0 h l rfl rfl
  | fSetAnim v =>
    rw [exec_fSetAnim, execFSetAnim, emit_p1]
    exact Shape.of_command s .setAnim 0 0 v rfl rfl
  | fAutoMode =>
    rw [exec_fAutoMode, execFAutoMode, emit_p0]
    exact Shape.of_command s .autoMode 0 0 0 rfl rfl
  | fGetName =>
    rw [exec_fGetName, execFGetName, emit_p0]
    exact Shape.of_query s .getName .getName rfl rfl
  | fGetSettings =>
    rw [exec_fGetSettings, execFGetSettings, emit_p0]
    exact Shape.of_query s .getSettings .getRaw rfl rfl

end Sys2Proof.Machine
end

