-- ==== Sys2Proof/Laws/Inbox.lean ====
section
/-! SUPPORT. The queue of events: which one the block takes, and the cases of one step. -/

namespace Sys2Proof.Machine

/-- The completion phases of a query are its completion requests, and nothing else is. -/
theorem completes_iff (i : Instr) (q : Query) : completes i = some q ↔ ∃ raw, i = q.completion raw := by
  constructor
  · intro h
    unfold completes at h
    split at h <;> cases h
    all_goals exact ⟨_, rfl⟩
  · rintro ⟨raw, rfl⟩
    cases q <;> rfl

/-- A request of the host that asks for no completion of the query waits. -/
theorem answersQuery_host_false {c : Config} {q : Query} {e : Event} (he : e.fromHost = true)
    (h : ∀ raw, e.asks c ≠ some (q.completion raw)) : answersQuery c q e = false := by
  rw [answersQuery, he, Bool.not_true, Bool.false_or, beq_eq_false_iff_ne]
  intro hc
  obtain ⟨i, hi, hc⟩ := Option.bind_eq_some_iff.mp hc
  obtain ⟨raw, rfl⟩ := (completes_iff i q).mp hc
  exact h raw hi

/-- What comes from outside the host is taken at any time. -/
theorem answersQuery_outside {c : Config} {q : Query} {e : Event} (he : e.fromHost = false) :
    answersQuery c q e = true := by
  rw [answersQuery, he]
  rfl

theorem firstReady_split {p : Event → Bool} (before : List Event) (e : Event) (after : List Event)
    (hb : ∀ x ∈ before, p x = false) (he : p e = true) :
    firstReady p (before ++ e :: after) = some (before, e, after) := by
  induction before with
  | nil => simp [firstReady, he]
  | cons x rest ih =>
    rw [List.cons_append, firstReady, if_neg (by simp [hb x]), ih fun y hy => hb y (List.mem_cons_of_mem _ hy)]

theorem firstReady_none {p : Event → Bool} (l : List Event) (h : ∀ x ∈ l, p x = false) : firstReady p l = none := by
  induction l with
  | nil => rfl
  | cons x rest ih => rw [firstReady, if_neg (by simp [h x]), ih fun y hy => h y (List.mem_cons_of_mem _ hy)]

theorem firstReady_ready {p : Event → Bool} {l before after : List Event} {e : Event}
    (h : firstReady p l = some (before, e, after)) : l = before ++ e :: after ∧ p e = true := by
  induction l generalizing before with
  | nil => cases h
  | cons x rest ih =>
    rw [firstReady] at h
    split at h
    · rename_i hx
      cases h
      exact ⟨rfl, hx⟩
    · split at h
      · rename_i b y a hr
        cases h
        obtain ⟨h1, h2⟩ := ih hr
        exact ⟨by rw [h1, List.cons_append], h2⟩
      · cases h

/-- With no query in progress the first event in line is taken (20_memory.md R52). -/
theorem nextEvent_idle {s : State} {e : Event} {rest : List Event} (hq : s.query = none) (hi : s.inbox = e :: rest) :
    nextEvent s = some (e, rest) := by
  rw [nextEvent, hq, hi]

/-- While a query is in progress the first event that answers it is taken (20_memory.md R58). -/
theorem nextEvent_query {s : State} {p : Pending} {before after : List Event} {e : Event} (hq : s.query = some p)
    (hi : s.inbox = before ++ e :: after) (hb : ∀ x ∈ before, answersQuery s.cfg p.query x = false)
    (he : answersQuery s.cfg p.query e = true) :
    nextEvent s = some (e, if e = .reset then after else before ++ after) := by
  rw [nextEvent, hq, hi]
  simp only [firstReady_split before e after hb he]

/-- One step takes the next event. -/
theorem step_of_nextEvent {s : State} {e : Event} {inbox : List Event} (h : nextEvent s = some (e, inbox)) :
    step s = handle e { s with inbox := inbox } := by
  rw [step, h]

/-- With nothing to take, a step changes nothing. -/
theorem step_of_idle {s : State} (h : nextEvent s = none) : step s = .next s := by
  rw [step, h]

/-- What comes from the transport, or is a reset, is taken at once when it is first in line, query or no query. -/
theorem nextEvent_outside {s : State} {e : Event} {rest : List Event} (hi : s.inbox = e :: rest)
    (he : e.fromHost = false) : nextEvent s = some (e, rest) := by
  cases hq : s.query with
  | none => exact nextEvent_idle hq hi
  | some p =>
    rw [nextEvent_query (before := []) hq hi (by simp) (answersQuery_outside he), List.nil_append, ite_self]

/-- The query in progress awaits the answer to its own frame. -/
theorem State.awaiting_some {s : State} {p : Pending} (hq : s.query = some p) : s.awaiting p.call = some p.query := by
  simp [State.awaiting, hq]

/-- No query awaits the answer to another frame. -/
theorem State.awaiting_none {s : State} {call : Nat} (h : ∀ p, s.query = some p → p.call ≠ call) :
    s.awaiting call = none := by
  rw [State.awaiting]
  split
  · rename_i p hp
    rw [if_neg (h p hp)]
  · rfl

/-- An event of the host that asks for an instruction runs it. -/
theorem handle_asks {s : State} {e : Event} {i : Instr} (h : e.asks s.cfg = some i) : handle e s = exec i s := by
  cases e with
  | request bytes =>
    rw [Event.asks] at h
    rw [handle]
    cases hd : decodeRequest s.cfg.port bytes with
    | ok j => rw [hd] at h; cases h; rfl
    | bad why => rw [hd] at h; cases h
  | term j => cases h; rfl
  | rsp | failed | reset => cases h

/-- A word of the opcode table is asked for as the instruction it stands for. -/
theorem wordEvent_asks {c : Config} {w : Code} {i : Instr} (h : readWord c w = some i) :
    (wordEvent c w).asks c = some i := by
  cases w with
  | request bytes => exact h
  | frame bytes =>
    rw [readWord] at h
    rw [wordEvent]
    cases hr : readFrame c.opcodes bytes with
    | ok j => rw [hr] at h; exact h
    | notAFrame | unknownFrame => rw [hr] at h; cases h

theorem handle_rsp_awaited {s : State} {p : Pending} (bytes : List Byte) (hq : s.query = some p) :
    handle (.rsp p.call bytes) s = exec (p.query.completion bytes) s := by
  simp only [handle, State.awaiting_some hq]

theorem handle_rsp_other {s : State} {call : Nat} (bytes : List Byte) (h : ∀ p, s.query = some p → p.call ≠ call) :
    handle (.rsp call bytes) s = .next s := by
  simp only [handle, State.awaiting_none h]

theorem handle_failed_awaited {s : State} {p : Pending} (why : TransportError) (hq : s.query = some p) :
    handle (.failed p.call why) s = .next { s with query := none } := by
  simp only [handle, State.awaiting_some hq]

theorem handle_failed_other {s : State} {call : Nat} (why : TransportError)
    (h : ∀ p, s.query = some p → p.call ≠ call) : handle (.failed call why) s = .next s := by
  simp only [handle, State.awaiting_none h]

/-- Everything an event that is taken can do. -/
inductive Handled (e : Event) (s : State) (res : Result) : Prop where
  /-- It runs an instruction. -/
  | runs (i : Instr) (h : res = exec i s)
  /-- It raises `IllegalFunction`. -/
  | illegal (fn : Byte) (h : res = .next (raised s [] .illegalFunction (some fn.toNat)))
  /-- It is refused by name. -/
  | refuses (why : Refusal) (h : res = .refused why)
  /-- It is dropped, or the transport failed. -/
  | closes (q : Option Pending) (h : res = .next { s with query := q }) (hq : q = none ∨ q = s.query)
  /-- It resets the block. -/
  | resets (h : res = .next s.doReset)

theorem handle_cases (e : Event) (s : State) : Handled e s (handle e s) := by
  cases e with
  | request bytes =>
    rw [handle]
    split
    · exact .runs _ rfl
    · rename_i why _
      cases why with
      | illegalFunction fn => exact .illegal fn rfl
      | noFunction => exact .refuses _ rfl
      | truncated fn => exact .refuses _ rfl
      | notPresentable fn => exact .refuses _ rfl
  | term i => exact .runs i rfl
  | rsp call bytes =>
    rw [handle]
    split
    · exact .runs _ rfl
    · exact .closes s.query rfl (.inr rfl)
  | failed call why =>
    rw [handle]
    split
    · exact .closes none rfl (.inl rfl)
    · exact .closes s.query rfl (.inr rfl)
  | reset => exact .resets rfl

end Sys2Proof.Machine
end

