-- ==== Sys2Proof/Laws/PerInstr.lean ====
section
/-! SUPPORT. The per-instruction family `FixedBits`: the bits the opcode table fixes in the words of an instruction
(30_encoding.md R66 and R69), one lemma per constructor. -/

namespace Sys2Proof.Laws

/-- The row of the opcode table an instruction belongs to: an operation of format `REQ`, or a kind of frame. -/
def rowOf : Instr → Op ⊕ FrameKind
  | .encMin _ => .inl .encMin
  | .encW _ _ => .inl .encW
  | .build _ _ => .inl .build
  | .parse _ => .inl .parse
  | .n2cAnim _ => .inl .n2cAnim
  | .n2cChip _ => .inl .n2cChip
  | .n2cOrder _ => .inl .n2cOrder
  | .c2nAnim _ => .inl .c2nAnim
  | .c2nChip _ => .inl .c2nChip
  | .c2nOrder _ => .inl .c2nOrder
  | .cmdIsReady _ => .inl .isReady
  | .cmdSetPower _ => .inl .setPower
  | .cmdSetColor _ => .inl .setColor
  | .cmdSetSpeed _ => .inl .setSpeed
  | .cmdSetBright _ => .inl .setBright
  | .cmdSetWhite _ => .inl .setWhite
  | .cmdSetSegs _ => .inl .setSegs
  | .cmdSetLeds _ => .inl .setLeds
  | .cmdSetMono _ => .inl .setMono
  | .cmdSetMixed _ => .inl .setMixed
  | .cmdAutoMode => .inl .autoMode
  | .cmdToggle => .inl .toggle
  | .cmdGetName _ => .inl .getName
  | .cmdGetRaw _ => .inl .getRaw
  | .cmdGetSettings _ => .inl .getSettings
  | .fIsReady => .inr .isReady
  | .fToggle => .inr .toggle
  | .fSetColor _ _ _ => .inr .setColor
  | .fSetSpeed _ => .inr .setSpeed
  | .fSetBright _ => .inr .setBright
  | .fSetWhite _ => .inr .setWhite
  | .fSetSegs _ _ => .inr .setSegs
  | .fSetLeds _ _ => .inr .setLeds
  | .fSetAnim _ => .inr .setAnim
  | .fAutoMode => .inr .autoMode
  | .fGetName => .inr .getName
  | .fGetSettings => .inr .getSettings

/-- The fixed bits of an instruction's words: a request begins with the `fn` byte of its row (30_encoding.md R66); a
frame has HEAD, the opcode of its row, TAIL, and zeros where its payload form fixes them (R69). -/
def FixedBits.Statement (i : Instr) : Prop :=
  ∀ cfg : Config,
    match rowOf i with
    | .inl o => ∃ operands, encode cfg i = .request (o.fn :: operands)
    | .inr k => ∃ a b c, k.form.fits a b c = true ∧ encode cfg i = .frame [head, a, b, c, k.opcode cfg.opcodes, tail]

theorem FixedBits.encMin (value : Nat) : FixedBits.Statement (.encMin value) := fun _ => ⟨_, rfl⟩

theorem FixedBits.encW (value : Nat) (width : Nat) : FixedBits.Statement (.encW value width) :=
  fun _ => ⟨_, rfl⟩

theorem FixedBits.build (opcode : Byte) (payload : List Byte) : FixedBits.Statement (.build opcode payload) :=
  fun _ => ⟨_, rfl⟩

theorem FixedBits.parse (raw : List Byte) : FixedBits.Statement (.parse raw) := fun _ => ⟨_, rfl⟩

theorem FixedBits.n2cAnim (name : Name) : FixedBits.Statement (.n2cAnim name) := fun _ => ⟨_, rfl⟩

theorem FixedBits.n2cChip (name : Name) : FixedBits.Statement (.n2cChip name) := fun _ => ⟨_, rfl⟩

theorem FixedBits.n2cOrder (name : Name) : FixedBits.Statement (.n2cOrder name) := fun _ => ⟨_, rfl⟩

theorem FixedBits.c2nAnim (code : Byte) : FixedBits.Statement (.c2nAnim code) := fun _ => ⟨_, rfl⟩

theorem FixedBits.c2nChip (code : Byte) : FixedBits.Statement (.c2nChip code) := fun _ => ⟨_, rfl⟩

theorem FixedBits.c2nOrder (code : Byte) : FixedBits.Statement (.c2nOrder code) := fun _ => ⟨_, rfl⟩

theorem FixedBits.cmdIsReady (raw : Option (List Byte)) : FixedBits.Statement (.cmdIsReady raw) :=
  fun _ => ⟨_, rfl⟩

theorem FixedBits.cmdSetPower (on : Bool) : FixedBits.Statement (.cmdSetPower on) := fun _ => ⟨_, rfl⟩

theorem FixedBits.cmdSetColor (rgb : Int) : FixedBits.Statement (.cmdSetColor rgb) := fun _ => ⟨_, rfl⟩

theorem FixedBits.cmdSetSpeed (n : Int) : FixedBits.Statement (.cmdSetSpeed n) := fun _ => ⟨_, rfl⟩

theorem FixedBits.cmdSetBright (n : Int) : FixedBits.Statement (.cmdSetBright n) := fun _ => ⟨_, rfl⟩

theorem FixedBits.cmdSetWhite (n : Option Int) : FixedBits.Statement (.cmdSetWhite n) := fun _ => ⟨_, rfl⟩

theorem FixedBits.cmdSetSegs (n : Option Int) : FixedBits.Statement (.cmdSetSegs n) := fun _ => ⟨_, rfl⟩

theorem FixedBits.cmdSetLeds (n : Option Int) : FixedBits.Statement (.cmdSetLeds n) := fun _ => ⟨_, rfl⟩

theorem FixedBits.cmdSetMono (code : Byte) : FixedBits.Statement (.cmdSetMono code) := fun _ => ⟨_, rfl⟩

theorem FixedBits.cmdSetMixed (index : Int) : FixedBits.Statement (.cmdSetMixed index) := fun _ => ⟨_, rfl⟩

theorem FixedBits.cmdAutoMode : FixedBits.Statement .cmdAutoMode := fun _ => ⟨_, rfl⟩

theorem FixedBits.cmdToggle : FixedBits.Statement .cmdToggle := fun _ => ⟨_, rfl⟩

theorem FixedBits.cmdGetName (raw : Option (List Byte)) : FixedBits.Statement (.cmdGetName raw) :=
  fun _ => ⟨_, rfl⟩

theorem FixedBits.cmdGetRaw (raw : Option (List Byte)) : FixedBits.Statement (.cmdGetRaw raw) :=
  fun _ => ⟨_, rfl⟩

theorem FixedBits.cmdGetSettings (raw : Option (List Byte)) : FixedBits.Statement (.cmdGetSettings raw) :=
  fun _ => ⟨_, rfl⟩

theorem FixedBits.fIsReady : FixedBits.Statement .fIsReady := fun _ => ⟨_, _, _, rfl, rfl⟩

theorem FixedBits.fToggle : FixedBits.Statement .fToggle := fun _ => ⟨_, _, _, rfl, rfl⟩

theorem FixedBits.fSetColor (r g b : Byte) : FixedBits.Statement (.fSetColor r g b) :=
  fun _ => ⟨_, _, _, rfl, rfl⟩

theorem FixedBits.fSetSpeed (v : Byte) : FixedBits.Statement (.fSetSpeed v) := fun _ => ⟨_, _, _, rfl, rfl⟩

theorem FixedBits.fSetBright (v : Byte) : FixedBits.Statement (.fSetBright v) := fun _ => ⟨_, _, _, rfl, rfl⟩

theorem FixedBits.fSetWhite (v : Byte) : FixedBits.Statement (.fSetWhite v) := fun _ => ⟨_, _, _, rfl, rfl⟩

theorem FixedBits.fSetSegs (h l : Byte) : FixedBits.Statement (.fSetSegs h l) := fun _ => ⟨_, _, _, rfl, rfl⟩

theorem FixedBits.fSetLeds (h l : Byte) : FixedBits.Statement (.fSetLeds h l) := fun _ => ⟨_, _, _, rfl, rfl⟩

theorem FixedBits.fSetAnim (v : Byte) : FixedBits.Statement (.fSetAnim v) := fun _ => ⟨_, _, _, rfl, rfl⟩

theorem FixedBits.fAutoMode : FixedBits.Statement .fAutoMode := fun _ => ⟨_, _, _, rfl, rfl⟩

theorem FixedBits.fGetName : FixedBits.Statement .fGetName := fun _ => ⟨_, _, _, rfl, rfl⟩

theorem FixedBits.fGetSettings : FixedBits.Statement .fGetSettings := fun _ => ⟨_, _, _, rfl, rfl⟩

end Sys2Proof.Laws
end

