-- ==== Sys2Proof/Tests/Slice0.lean ====
section
/-! SUPPORT. Small tests. The words are written out from 30_encoding.md R66 and R69, the expected results are those of
95_test_vectors.md (the identifier of the vector stands in each comment). The second half shows, for every statement
that has hypotheses, a state and operands that meet them together. -/

namespace Sys2Proof.Tests

open Sys2Proof.Machine

set_option maxRecDepth 20000

/-- The request decoder at the default port (00_scope.md R8). -/
abbrev decoded : List Byte → Decoded := decodeRequest defaultPort

/-- Which instructions the default port presents. -/
abbrev presentable : Instr → Bool := wellFormed defaultPort

/-- A port of other sizes (00_scope.md R8): 12-bit values, 9-bit signed operands, 300-byte blobs, 3-letter names. -/
def otherPort : Port :=
  { valueBits := 12, intBits := 9, encWidthMax := 2, payloadInMax := 4, rawMax := 300, nameMax := 3 }

/-! ### The checks of WellFormed, each with a term it refuses -/

theorem test_wf_value : presentable (.encMin 0xffffffff) = true ∧ presentable (.encMin 0x100000000) = false := by decide

theorem test_wf_width : presentable (.encW 1 4) = true ∧ presentable (.encW 1 5) = false := by decide

theorem test_wf_encW_value : presentable (.encW 0x100000000 4) = false := by decide

theorem test_wf_payload :
    presentable (.build 0 (zeros 7)) = true ∧ presentable (.build 0 (zeros 8)) = false := by decide

theorem test_wf_raw : presentable (.parse (zeros 32)) = true ∧ presentable (.parse (zeros 33)) = false := by decide

theorem test_wf_optional_raw :
    presentable (.cmdGetRaw none) = true ∧ presentable (.cmdGetName (some (zeros 33))) = false ∧
    presentable (.cmdIsReady (some (zeros 33))) = false ∧ presentable (.cmdGetRaw (some (zeros 33))) = false ∧
    presentable (.cmdGetSettings (some (zeros 33))) = false := by decide

theorem test_wf_name :
    presentable (.n2cAnim (zeros 255)) = true ∧ presentable (.n2cAnim (zeros 256)) = false ∧
    presentable (.n2cChip (zeros 256)) = false ∧ presentable (.n2cOrder (zeros 256)) = false := by decide

theorem test_wf_int :
    presentable (.cmdSetBright (-2147483648)) = true ∧ presentable (.cmdSetBright (-2147483649)) = false ∧
    presentable (.cmdSetSpeed 2147483648) = false ∧ presentable (.cmdSetColor 2147483648) = false ∧
    presentable (.cmdSetMixed 2147483648) = false := by decide

theorem test_wf_optional_int :
    presentable (.cmdSetWhite none) = true ∧ presentable (.cmdSetWhite (some 2147483648)) = false ∧
    presentable (.cmdSetSegs (some 2147483648)) = false ∧ presentable (.cmdSetLeds (some (-2147483649))) = false := by
  decide

/-- "Every default is chosen so that each error case the source describes can be presented at the port" (00_scope.md R8). -/
theorem test_wf_error_cases :
    presentable (.encW 16777216 3) = true ∧ presentable (.build 0x22 [0, 0, 0, 1]) = true ∧
    presentable (.cmdGetRaw (some (zeros 16))) = true ∧ presentable (.parse (zeros 18)) = true := by decide

/-- The same checks at the other port, each at the boundary of its range. -/
theorem test_wf_other_port :
    wellFormed otherPort (.encMin 4095) = true ∧ wellFormed otherPort (.encMin 4096) = false ∧
    wellFormed otherPort (.encW 1 3) = false ∧ wellFormed otherPort (.build 0 (zeros 5)) = false ∧
    wellFormed otherPort (.cmdSetBright 256) = false ∧ wellFormed otherPort (.cmdSetBright (-256)) = true ∧
    wellFormed otherPort (.cmdSetBright (-257)) = false ∧ wellFormed otherPort (.n2cAnim (zeros 4)) = true := by decide

/-! ### What the decoder refuses -/

theorem test_decode_no_function : decoded [] = .bad .noFunction := by decide

/-- The gaps of the `fn` table: K23, K23a, K23b, K23c. -/
theorem test_decode_illegal_function :
    decoded [0x04] = .bad (.illegalFunction 0x04) ∧ decoded [0x13, 0x01] = .bad (.illegalFunction 0x13) ∧
    decoded [0x4f] = .bad (.illegalFunction 0x4f) ∧ decoded [0xff] = .bad (.illegalFunction 0xff) ∧
    decoded [0x38, 0, 0, 0, 0xaa, 0x83] = .bad (.illegalFunction 0x38) := by decide

theorem test_decode_truncated :
    decoded [0x00, 0, 0, 1] = .bad (.truncated 0x00) ∧ decoded [0x45] = .bad (.truncated 0x45) ∧
    decoded [0x02, 0x2a, 0x02, 0x01] = .bad (.truncated 0x02) := by decide

theorem test_decode_not_presentable :
    decoded [0x01, 0, 0, 0, 1, 5] = .bad (.notPresentable 0x01) ∧
    decoded [0x02, 0x2a, 0x08] = .bad (.notPresentable 0x02) ∧
    decoded [0x03, 0x21] = .bad (.notPresentable 0x03) := by decide

/-- At the other port: a value of 13 bits, a signed operand of 10 bits, and a length over `RAW_MAX`. -/
theorem test_decode_not_presentable_other :
    decodeRequest otherPort [0x00, 0x10, 0x00] = .bad (.notPresentable 0x00) ∧
    decodeRequest otherPort [0x44, 0x02, 0x00] = .bad (.notPresentable 0x44) ∧
    decodeRequest otherPort [0x03, 0x01, 0x2d] = .bad (.notPresentable 0x03) := by decide

/-- The inverse of BUILD on ill-formed sequences (95_test_vectors.md 2.2), the historical set-speed message (U1), and
the frame that matches no row (95_test_vectors.md 2.5). -/
theorem test_decode_no_frame :
    readFrame defaultOpcodes [0x38, 0, 0, 0x20, 0x2a, 0x84] = .notAFrame ∧
    readFrame defaultOpcodes [0x39, 0, 0, 0x20, 0x2a, 0x83] = .notAFrame ∧
    readFrame defaultOpcodes [0x38, 0, 0, 0x10] = .notAFrame ∧
    readFrame defaultOpcodes [0x38, 0, 0, 0, 0x2a, 0x83, 0] = .notAFrame ∧
    readFrame defaultOpcodes [0x38, 0, 1, 0, 0x2a, 0x83] = .unknownFrame ∧
    readFrame defaultOpcodes [0x38, 0, 0, 0, 0x00, 0x83] = .unknownFrame := by decide

/-! ### Words written out from the encodings -/

theorem test_words_encoder :
    decoded [0x00, 0x00, 0x00, 0x01, 0x2c] = .ok (.encMin 300) ∧
    decoded [0x01, 0xde, 0xad, 0xbe, 0xef, 0x04] = .ok (.encW 3735928559 4) := by decide

theorem test_words_codec :
    decoded [0x02, 0x2d, 0x02, 0x01, 0x2c] = .ok (.build 0x2d [0x01, 0x2c]) ∧
    decoded [0x03, 0x03, 0x38, 0x01, 0xcd] = .ok (.parse [0x38, 0x01, 0xcd]) := by decide

theorem test_words_lookups :
    decoded [0x10, 0x02, 0x47, 0x52] = .ok (.n2cAnim [0x47, 0x52]) ∧
    decoded [0x11, 0x00] = .ok (.n2cChip []) ∧
    decoded [0x12, 0x03, 0x47, 0x52, 0x42] = .ok (.n2cOrder (ascii "GRB")) ∧
    decoded [0x14, 0xcd] = .ok (.c2nAnim 0xcd) ∧ decoded [0x15, 0x03] = .ok (.c2nChip 0x03) ∧
    decoded [0x16, 0x02] = .ok (.c2nOrder 0x02) := by decide

theorem test_words_commands :
    decoded [0x41, 0x01] = .ok (.cmdSetPower true) ∧ decoded [0x41, 0x00] = .ok (.cmdSetPower false) ∧
    decoded [0x42, 0x00, 0xff, 0x00, 0x00] = .ok (.cmdSetColor 0xff0000) ∧
    decoded [0x43, 0x00, 0x00, 0x00, 0x10] = .ok (.cmdSetSpeed 16) ∧
    decoded [0x44, 0xff, 0xff, 0xff, 0xff] = .ok (.cmdSetBright (-1)) ∧
    decoded [0x48, 0xcd] = .ok (.cmdSetMono 0xcd) ∧
    decoded [0x49, 0x80, 0x00, 0x00, 0x00] = .ok (.cmdSetMixed (-2147483648)) ∧
    decoded [0x4a] = .ok .cmdAutoMode ∧ decoded [0x4b] = .ok .cmdToggle := by decide

theorem test_words_optional_operands :
    decoded [0x45, 0x00] = .ok (.cmdSetWhite none) ∧
    decoded [0x45, 0x01, 0x00, 0x00, 0x00, 0x50] = .ok (.cmdSetWhite (some 80)) ∧
    decoded [0x46, 0x01, 0x00, 0x00, 0x01, 0x00] = .ok (.cmdSetSegs (some 256)) ∧
    decoded [0x47, 0x01, 0xff, 0xff, 0xff, 0xff] = .ok (.cmdSetLeds (some (-1))) := by decide

theorem test_words_queries :
    decoded [0x40, 0x00] = .ok (.cmdIsReady none) ∧
    decoded [0x40, 0x01, 0x01, 0x31] = .ok (.cmdIsReady (some [0x31])) ∧
    decoded [0x4c, 0x00] = .ok (.cmdGetName none) ∧ decoded [0x4d, 0x00] = .ok (.cmdGetRaw none) ∧
    decoded [0x4e, 0x01, 0x00] = .ok (.cmdGetSettings (some [])) := by decide

/-- Words at the other port: 12-bit and 9-bit operands in two bytes, a two-byte length before a blob. -/
theorem test_words_other_port :
    decodeRequest otherPort [0x01, 0x0f, 0xff, 0x02] = .ok (.encW 4095 2) ∧
    decodeRequest otherPort [0x44, 0x01, 0xff] = .ok (.cmdSetBright (-1)) ∧
    decodeRequest otherPort [0x44, 0x01, 0x00] = .ok (.cmdSetBright (-256)) ∧
    decodeRequest otherPort [0x03, 0x00, 0x02, 0x38, 0x01] = .ok (.parse [0x38, 0x01]) := by decide

/-- The frame words of 30_encoding.md R69, HEAD in bits 47 to 40. -/
theorem test_words_frames :
    decodeTableWord 48 0x380000002f83 = some .fIsReady ∧ decodeTableWord 48 0x38000000aa83 = some .fToggle ∧
    decodeTableWord 48 0x381234562283 = some (.fSetColor 0x12 0x34 0x56) ∧
    decodeTableWord 48 0x380000100383 = some (.fSetSpeed 0x10) ∧
    decodeTableWord 48 0x380000202a83 = some (.fSetBright 0x20) ∧
    decodeTableWord 48 0x380000500883 = some (.fSetWhite 0x50) ∧
    decodeTableWord 48 0x380001002e83 = some (.fSetSegs 0x01 0x00) ∧
    decodeTableWord 48 0x3800012c2d83 = some (.fSetLeds 0x01 0x2c) ∧
    decodeTableWord 48 0x380000b32c83 = some (.fSetAnim 0xb3) ∧
    decodeTableWord 48 0x380000000683 = some .fAutoMode ∧ decodeTableWord 48 0x380000007783 = some .fGetName ∧
    decodeTableWord 48 0x380000001083 = some .fGetSettings := by decide

/-- A `REQ` word of the table, its operand bytes zero. -/
theorem test_table_words :
    decodeTableWord 8 0x01 = some (.encW 0 0) ∧ decodeTableWord 8 0x02 = some (.build 0 []) ∧
    decodeTableWord 8 0x46 = some (.cmdSetSegs none) ∧ decodeTableWord 8 0x4d = some (.cmdGetRaw none) ∧
    decodeTableWord 8 0x13 = none := by decide

/-! ### Results, on the state after reset -/

/-- The next state, if there is one. -/
def nextOf (r : Result) : Option State :=
  match r with
  | .next s => some s
  | .fault _ => none
  | .refused _ => none

/-- The response of one instruction from reset. -/
def resp (i : Instr) : Option Response := (nextOf (exec i State.reset)).bind State.resp

/-- `res.frame`, `res.expect`, `res.rsp_len` of one instruction from reset. -/
def frameOut (i : Instr) : Option WireEntry :=
  match resp i with
  | some { frame := some f, expect := some e, rspLen := some n, .. } => some ⟨f, e, n⟩
  | _ => none

/-- A command that reads nothing. -/
def sent (f : List Byte) : Option WireEntry := some ⟨f, false, 0⟩

/-- A query that reads `n` bytes. -/
def asked (f : List Byte) (n : Nat) : Option WireEntry := some ⟨f, true, n⟩

/-- `res.status`, `res.info`. -/
def ended (i : Instr) : Option (Status × Option Int) := (resp i).map fun r => (r.status, r.info)

/-- `res.bytes` of an encoding. -/
def encoded (i : Instr) : Option (List Byte) := (resp i).bind Response.bytes

/-- S1's blob with the bytes 0x38 and 0x83 where the source names none. -/
def blobS1 : List Byte :=
  [0x38, 0x01, 0xcd, 0x10, 0x20, 0x02, 0x00, 0x9a, 0x00, 0x01, 0xff, 0x00, 0x00, 0x03, 0x00, 0x00, 0x83]

/-- S1's record. -/
def recordS1 : Settings :=
  { power := true, animation := .known (ascii "meteor") 0xcd, speed := 16, brightness := 32,
    colorOrder := .known (ascii "GRB") 0x02, ledsPerSegment := 154, segments := 1, color := ⟨0xff, 0x00, 0x00⟩,
    chip := .known (ascii "WS2811") 0x03, patterns := 0, white := 0 }

/-- E15, E16, E20, E26. -/
theorem test_encMin :
    encoded (.encMin 0) = some [0x00] ∧ encoded (.encMin 15) = some [0x0f] ∧
    encoded (.encMin 300) = some [0x01, 0x2c] ∧ encoded (.encMin 4294967295) = some [0xff, 0xff, 0xff, 0xff] := by
  decide

/-- E4, E11, E13, E14. -/
theorem test_encW :
    encoded (.encW 154 2) = some [0x00, 0x9a] ∧ encoded (.encW 0 0) = some [] ∧
    encoded (.encW 1 4) = some [0x00, 0x00, 0x00, 0x01] ∧
    encoded (.encW 3735928559 4) = some [0xde, 0xad, 0xbe, 0xef] := by decide

/-- E3, E10, E12. -/
theorem test_encW_range :
    ended (.encW 256 1) = some (.rangeError, some 256) ∧
    ended (.encW 16777216 3) = some (.rangeError, some 16777216) ∧
    ended (.encW 1 0) = some (.rangeError, some 1) := by decide

/-- Section 2.1, the round trip of E4: `hex_lc`, and `unhex` in both cases. -/
theorem test_hex :
    hexLc [0x00, 0x9a] = "009a".toList ∧ unhex "009a".toList = some [0x00, 0x9a] ∧
    unhex "009A".toList = some [0x00, 0x9a] := by decide

/-- B1, B2, B4, B7. -/
theorem test_build :
    (resp (.build 0x2a [0x20])).bind Response.frame = some [0x38, 0x00, 0x00, 0x20, 0x2a, 0x83] ∧
    (resp (.build 0x00 [])).bind Response.frame = some [0x38, 0x00, 0x00, 0x00, 0x00, 0x83] ∧
    (resp (.build 0x2d [0x01, 0x2c])).bind Response.frame = some [0x38, 0x00, 0x01, 0x2c, 0x2d, 0x83] ∧
    (resp (.build 0x38 [0x83, 0x38, 0x83])).bind Response.frame = some [0x38, 0x83, 0x38, 0x83, 0x38, 0x83] := by
  decide

/-- B8, and BUILD hands nothing to the transport (70_reset_and_hazards.md R214). -/
theorem test_build_range :
    ended (.build 0x22 [0, 0, 0, 1]) = some (.rangeError, some 4) ∧
    (nextOf (exec (.build 0x22 [1]) State.reset)).map State.wire = some [] := by decide

/-- Q1, Q5. -/
theorem test_parse :
    (resp (.parse blobS1)).bind Response.settings = some recordS1 ∧
    (resp (.parse (blobS1 ++ [0xaa]))).bind Response.settings = some recordS1 := by decide

/-- Q3, Q7. -/
theorem test_parse_short :
    ended (.parse (blobS1.take 16)) = some (.malformedResponse, some 16) ∧
    (resp (.parse (List.replicate 17 0xff))).bind Response.warn = some ⟨true, true, true⟩ := by decide

/-- S1's line, as the source prints it (41_frame_codec.md R105); 123 and 125 are the two braces. -/
theorem test_render :
    renderSettings recordS1 = some ([Char.ofNat 123] ++
      ("power: true, animation: \"meteor\", speed: 16, brightness: 32, colorOrder: \"GRB\", ledsPerSegment: 154, " ++
        "segments: 1, color: \"FF0000\", chip: \"WS2811\", patterns: 0, white: 0").toList ++ [Char.ofNat 125]) := by
  decide

/-- T1, T8, T12. -/
theorem test_n2cAnim :
    (resp (.n2cAnim (ascii "meteor"))).bind Response.code = some 0xcd ∧
    (resp (.n2cAnim (ascii "catch up"))).bind Response.code = some 0xd4 ∧
    ended (.n2cAnim (ascii "Meteor")) = some (.notFound, none) := by decide

/-- T3, T11, T21. -/
theorem test_n2cChip :
    (resp (.n2cChip (ascii "WS2811"))).bind Response.code = some 0x03 ∧
    (resp (.n2cChip (ascii "APA102"))).bind Response.code = some 0x08 ∧
    ended (.n2cChip (ascii "GRB")) = some (.notFound, none) := by decide

/-- T2, T9. -/
theorem test_n2cOrder :
    (resp (.n2cOrder (ascii "GRB"))).bind Response.code = some 0x02 ∧
    ended (.n2cOrder (ascii "GRB ")) = some (.notFound, none) := by decide

/-- T4, T7. -/
theorem test_c2nAnim :
    resp (.c2nAnim 0xcd) = some { status := .ok, warnBits := ⟨false, false, false⟩, code := some 0xcd, known := some true,
                                  name := some (ascii "meteor") } ∧
    resp (.c2nAnim 0x01) = some { status := .ok, warnBits := ⟨true, false, false⟩, code := some 0x01,
                                  known := some false } := by decide

/-- Q3: after `raise` the bits are 000, and the field has no value (10_state.md R31); after `OK` it has (R90). -/
theorem test_warn_after_raise :
    (resp (.parse (blobS1.take 16))).map (fun r => (r.warnBits, r.warn)) = some (⟨false, false, false⟩, none) ∧
    (resp (.encMin 0)).map Response.warn = some (some ⟨false, false, false⟩) := by decide

/-- T20, T19. -/
theorem test_c2nChip :
    (resp (.c2nChip 0x18)).bind Response.name = some (ascii "SK6812_RGBW") ∧
    (resp (.c2nChip 0x1b)).bind Response.warn = some ⟨false, false, true⟩ := by decide

/-- T16, T17. -/
theorem test_c2nOrder :
    (resp (.c2nOrder 0x05)).bind Response.name = some (ascii "BGR") ∧
    (resp (.c2nOrder 0x06)).bind Response.warn = some ⟨false, true, false⟩ := by decide

/-- K1, K1a, K1c. -/
theorem test_cmdIsReady :
    frameOut (.cmdIsReady none) = asked [0x38, 0, 0, 0, 0x2f, 0x83] 1 ∧
    (resp (.cmdIsReady (some [0x31]))).bind Response.readyByte = some 0x31 ∧
    ended (.cmdIsReady (some [])) = some (.malformedResponse, some 0) := by decide

/-- K1a, K1b: the boolean reading. -/
theorem test_readyAsBool : readyAsBool 0x31 = true ∧ readyAsBool 0x00 = false := by decide

/-- K2, K3. -/
theorem test_cmdSetPower :
    frameOut (.cmdSetPower true) = sent [0x38, 0, 0, 0, 0xaa, 0x83] ∧
    frameOut (.cmdSetPower false) = sent [0x38, 0, 0, 0, 0xaa, 0x83] := by decide

/-- K5a, K5c, K5d, K5e. -/
theorem test_cmdSetColor :
    frameOut (.cmdSetColor 0x123456) = sent [0x38, 0x12, 0x34, 0x56, 0x22, 0x83] ∧
    frameOut (.cmdSetColor 16777215) = sent [0x38, 0xff, 0xff, 0xff, 0x22, 0x83] ∧
    ended (.cmdSetColor 16777216) = some (.rangeError, some 16777216) ∧
    ended (.cmdSetColor (-1)) = some (.rangeError, some (-1)) := by decide

/-- K6, K6b, K6c. -/
theorem test_cmdSetSpeed :
    frameOut (.cmdSetSpeed 16) = sent [0x38, 0, 0, 0x10, 0x03, 0x83] ∧
    frameOut (.cmdSetSpeed 255) = sent [0x38, 0, 0, 0xff, 0x03, 0x83] ∧
    ended (.cmdSetSpeed 256) = some (.rangeError, some 256) := by decide

/-- K7, K7c, K7d. -/
theorem test_cmdSetBright :
    frameOut (.cmdSetBright 32) = sent [0x38, 0, 0, 0x20, 0x2a, 0x83] ∧
    ended (.cmdSetBright 256) = some (.rangeError, some 256) ∧
    ended (.cmdSetBright (-1)) = some (.rangeError, some (-1)) := by decide

/-- K8, K9, K9c. -/
theorem test_cmdSetWhite :
    frameOut (.cmdSetWhite (some 0)) = sent [0x38, 0, 0, 0, 0x08, 0x83] ∧
    frameOut (.cmdSetWhite none) = sent [0x38, 0, 0, 0x50, 0x08, 0x83] ∧
    ended (.cmdSetWhite (some 256)) = some (.rangeError, some 256) := by decide

/-- K10, K10b, K10c, K10e. -/
theorem test_cmdSetSegs :
    frameOut (.cmdSetSegs none) = sent [0x38, 0, 0, 0x01, 0x2e, 0x83] ∧
    frameOut (.cmdSetSegs (some 256)) = sent [0x38, 0, 0x01, 0x00, 0x2e, 0x83] ∧
    frameOut (.cmdSetSegs (some 65535)) = sent [0x38, 0, 0xff, 0xff, 0x2e, 0x83] ∧
    ended (.cmdSetSegs (some 65536)) = some (.rangeError, some 65536) := by decide

/-- K12, K12a, K12c. -/
theorem test_cmdSetLeds :
    frameOut (.cmdSetLeds none) = sent [0x38, 0, 0, 0x9a, 0x2d, 0x83] ∧
    frameOut (.cmdSetLeds (some 300)) = sent [0x38, 0, 0x01, 0x2c, 0x2d, 0x83] ∧
    frameOut (.cmdSetLeds (some 0)) = sent [0x38, 0, 0, 0, 0x2d, 0x83] := by decide

/-- K13, K13b. -/
theorem test_cmdSetMono :
    frameOut (.cmdSetMono 0xcd) = sent [0x38, 0, 0, 0xcd, 0x2c, 0x83] ∧
    frameOut (.cmdSetMono 0xff) = sent [0x38, 0, 0, 0xff, 0x2c, 0x83] := by decide

/-- K14, K14c, K14d, K14e. -/
theorem test_cmdSetMixed :
    frameOut (.cmdSetMixed 1) = sent [0x38, 0, 0, 0x00, 0x2c, 0x83] ∧
    frameOut (.cmdSetMixed 180) = sent [0x38, 0, 0, 0xb3, 0x2c, 0x83] ∧
    ended (.cmdSetMixed 181) = some (.rangeError, some 181) ∧
    ended (.cmdSetMixed 0) = some (.rangeError, some 0) := by decide

/-- K15. -/
theorem test_cmdAutoMode : frameOut .cmdAutoMode = sent [0x38, 0, 0, 0, 0x06, 0x83] := by decide

/-- K4. -/
theorem test_cmdToggle : frameOut .cmdToggle = sent [0x38, 0, 0, 0, 0xaa, 0x83] := by decide

/-- K20, K20b. -/
theorem test_cmdGetName :
    frameOut (.cmdGetName none) = asked [0x38, 0, 0, 0, 0x77, 0x83] 18 ∧
    ended (.cmdGetName (some (zeros 17))) = some (.malformedResponse, some 17) := by decide

/-- K20a. -/
theorem test_cmdGetName_bytes :
    (resp (.cmdGetName (some [0x00, 0x53, 0x50, 0x31, 0x30, 0x38, 0x45, 0x5f, 0x31, 0x32, 0x33, 0x34, 0x35, 0x36, 0x00,
        0x00, 0x00, 0x00]))).bind Response.nameBytes =
      some [0x00, 0x53, 0x50, 0x31, 0x30, 0x38, 0x45, 0x5f, 0x31, 0x32, 0x33, 0x34, 0x35, 0x36, 0x00, 0x00, 0x00,
        0x00] := by decide

/-- K21, K21a, K21b. -/
theorem test_cmdGetRaw :
    frameOut (.cmdGetRaw none) = asked [0x38, 0, 0, 0, 0x10, 0x83] 17 ∧
    (resp (.cmdGetRaw (some blobS1))).bind Response.rawOut = some blobS1 ∧
    ended (.cmdGetRaw (some (blobS1.take 16))) = some (.malformedResponse, some 16) := by decide

/-- K22, K22a, K22c. -/
theorem test_cmdGetSettings :
    frameOut (.cmdGetSettings none) = asked [0x38, 0, 0, 0, 0x10, 0x83] 17 ∧
    (resp (.cmdGetSettings (some blobS1))).bind Response.settings = some recordS1 ∧
    ended (.cmdGetSettings (some (blobS1.take 16))) = some (.malformedResponse, some 16) := by decide

/-- The frame rows: each goes out as it stands, with the response length of its kind (43_commands.md R158). -/
theorem test_frames_out :
    frameOut .fIsReady = asked [0x38, 0, 0, 0, 0x2f, 0x83] 1 ∧
    frameOut .fToggle = sent [0x38, 0, 0, 0, 0xaa, 0x83] ∧
    frameOut (.fSetColor 1 2 3) = sent [0x38, 1, 2, 3, 0x22, 0x83] ∧
    frameOut (.fSetSpeed 9) = sent [0x38, 0, 0, 9, 0x03, 0x83] ∧
    frameOut (.fSetBright 9) = sent [0x38, 0, 0, 9, 0x2a, 0x83] ∧
    frameOut (.fSetWhite 9) = sent [0x38, 0, 0, 9, 0x08, 0x83] := by decide

theorem test_frames_out_more :
    frameOut (.fSetSegs 1 2) = sent [0x38, 0, 1, 2, 0x2e, 0x83] ∧
    frameOut (.fSetLeds 1 2) = sent [0x38, 0, 1, 2, 0x2d, 0x83] ∧
    frameOut (.fSetAnim 0xff) = sent [0x38, 0, 0, 0xff, 0x2c, 0x83] ∧
    frameOut .fAutoMode = sent [0x38, 0, 0, 0, 0x06, 0x83] ∧
    frameOut .fGetName = asked [0x38, 0, 0, 0, 0x77, 0x83] 18 ∧
    frameOut .fGetSettings = asked [0x38, 0, 0, 0, 0x10, 0x83] 17 := by decide

/-- P2: the host macro, target on and target off, against a device that answers "on". -/
theorem test_powerTo : powerTo true recordS1 = [] ∧ powerTo false recordS1 = [.cmdToggle] := by decide

/-- The status codes of 60_exceptions.md R170. -/
theorem test_status_codes :
    [Status.ok, .rangeError, .malformedResponse, .notFound, .illegalFunction].map Status.code = [0, 1, 2, 3, 4] := by
  decide

/-! ### One step -/

/-- A block with these events in line and this query in progress, its frame being element 0 of the wire trace. -/
def withLine (q : Option Query) (line : List Event) : State :=
  { State.reset with inbox := line, query := q.map fun q => ⟨q, 0⟩ }

/-- A placed table word runs in the very next step, and what stood in line waits. -/
theorem test_placed_word :
    (nextOf (step ((withLine none [.reset]).withFetchWord 48 0x380001002e83))).map State.wire =
        some [⟨[0x38, 0, 1, 0, 0x2e, 0x83], false, 0⟩] ∧
    (nextOf (step ((withLine none [.reset]).withFetchWord 8 0x4b))).map State.inbox = some [.reset] := by decide

/-- K23. -/
theorem test_step_illegal_function :
    (nextOf (step (withLine none [.request [0x04, 0xff]]))).map State.resp =
      some (some { status := .illegalFunction, warnBits := ⟨false, false, false⟩, info := some 4 }) := by decide

/-- The refusals of `step`, by name. -/
theorem test_step_refusals :
    step (withLine none [.request []]) = .refused .emptyRequest ∧
    step (withLine none [.request [0x00]]) = .refused (.truncatedRequest 0x00) ∧
    step (withLine none [.request [0x03, 0x21]]) = .refused (.operandNotPresentable 0x03) := ⟨rfl, rfl, rfl⟩

/-- A frame's bytes are no request (30_encoding.md R70); a row asked for as a term runs, with an operand of any size. -/
theorem test_step_frame_bytes :
    (nextOf (step (withLine none [.request [0x38, 0, 0, 0, 0xaa, 0x83]]))).map (fun s => (statusOf s, s.wire)) =
      some (some .illegalFunction, []) ∧
    (nextOf (step (withLine none [.term .fToggle]))).map State.wire =
      some [⟨[0x38, 0, 0, 0, 0xaa, 0x83], false, 0⟩] ∧
    (nextOf (step (withLine none [.term (.cmdSetBright (2 ^ 40))]))).map statusOf = some (some .rangeError) := by decide

/-- A block that abandoned CMD.GETSETTINGS and then handed over CMD.ISREADY's frame. -/
def midLate : State :=
  { withLine none [] with
    query := some ⟨.isReady, 1⟩
    wire := [⟨[0x38, 0, 0, 0, 0x10, 0x83], true, 17⟩, ⟨[0x38, 0, 0, 0, 0x2f, 0x83], true, 1⟩] }

/-- The answer of the transport overtakes a request that waits, and the request still waits after it. -/
theorem test_step_answer_overtakes :
    (nextOf (step (withLine (some .isReady) [.request [0x4b], .rsp 0 [0x31]]))).map
      (fun s => (s.resp.bind Response.readyByte, s.inbox, s.query)) =
      some (some 0x31, [.request [0x4b]], none) := by decide

/-- The late bytes of a query that a reset abandoned are handed to nobody, while the next query awaits its own
(70_reset_and_hazards.md R201): element 0 of the wire trace was CMD.GETSETTINGS' frame. -/
theorem test_step_late_bytes :
    (nextOf (step { midLate with inbox := [.rsp 0 blobS1, .rsp 1 [0x31]] })).map
      (fun s => (s.resp, s.query, s.inbox)) = some (none, some ⟨.isReady, 1⟩, [.rsp 1 [0x31]]) ∧
    (nextOf (step { midLate with inbox := [.failed 0 .timeoutError] })).map State.query = some (some ⟨.isReady, 1⟩) ∧
    (nextOf (step { midLate with inbox := [.rsp 1 [0x31]] })).bind (fun s => s.resp.bind Response.readyByte) =
      some 0x31 := by decide

/-- A reset drops the requests that wait behind the query it abandons. -/
theorem test_step_reset_drops :
    (nextOf (step (withLine (some .isReady) [.request [0x4b], .reset, .rsp 0 [0x31]]))).map
      (fun s => (s.inbox, s.query)) = some ([.rsp 0 [0x31]], none) := by decide

/-! ### The canonical form of a buffer -/

theorem test_memory :
    Memory.write [] 6 2 0x009a = [(6, 0x00), (7, 0x9a)] ∧ Memory.writeByte [(2, 1), (5, 2)] 3 7 = [(2, 1), (3, 7), (5, 2)] ∧
    Memory.writeByte [(2, 1), (5, 2)] 5 7 = [(2, 1), (5, 7)] ∧ Memory.read (Memory.ofBytes blobS1) 6 2 = some 154 ∧
    Memory.read (Memory.ofBytes blobS1) 16 2 = none ∧ Memory.wf [(2, 1), (2, 2)] = false := by decide

/-! ### The hypotheses of the statements, met together

One theorem for each statement that has hypotheses; where a statement has several clauses, a witness for each at a
boundary of its range. The state is the one after reset unless another is written. -/

/-- The tables of the state after reset are admissible (10_state.md R26 and R27). -/
theorem test_reset_tables : State.reset.cfg.tablesAdmissible := by
  have ha : EnumTable.admissible 16 defaultAnim := by rw [defaultAnim_eq]; decide
  have hc : EnumTable.admissible 16 defaultChip := by rw [defaultChip_eq]; decide
  have ho : EnumTable.admissible 16 defaultOrder := by rw [defaultOrder_eq]; decide
  have hf : EnumTables.sourceFacts ⟨defaultAnim, defaultChip, defaultOrder⟩ := by
    unfold EnumTables.sourceFacts
    rw [defaultAnim_eq, defaultChip_eq, defaultOrder_eq, ascii_meteor, ascii_GRB, ascii_WS2811, ascii_APA102]
    decide
  exact ⟨ha, hc, ho, hf⟩

/-- 10_state.md R27 fixes "nothing more": a colour order outside R128's six facts is admissible too. -/
theorem test_admissible_order_names :
    EnumTables.admissible 16 ⟨[⟨[0x6d, 0x65, 0x74, 0x65, 0x6f, 0x72], 0xcd⟩],
      [⟨[0x57, 0x53, 0x32, 0x38, 0x31, 0x31], 0x03⟩, ⟨[0x41, 0x50, 0x41, 0x31, 0x30, 0x32], 0x08⟩],
      [⟨[0x47, 0x52, 0x42], 0x02⟩, ⟨[0x57], 0x09⟩]⟩ ∧ [0x57] ∉ colourOrders := by
  unfold EnumTables.admissible EnumTables.sourceFacts
  rw [ascii_meteor, ascii_GRB, ascii_WS2811, ascii_APA102, colourOrders_eq]
  decide

theorem test_witness_EncodedInstructionsDecode :
    wellFormed otherPort (.parse (zeros 300)) = true ∧ wellFormed otherPort (.encW 4095 2) = true ∧
    defaultOpcodes.distinct ∧ presentable (.encW 0xffffffff 4) = true ∧ presentable (.build 0xff (zeros 7)) = true ∧
    presentable (.parse (zeros 32)) = true ∧ presentable (.n2cAnim (zeros 255)) = true ∧
    presentable (.cmdSetColor (-2147483648)) = true ∧ presentable (.cmdSetWhite (some 2147483647)) = true ∧
    presentable (.fSetColor 1 2 3) = true := by decide

theorem test_witness_DecodedInstructionsAreWellFormed :
    readWord defaultConfig (.request [0x01, 0xff, 0xff, 0xff, 0xff, 0x04]) = some (.encW 4294967295 4) ∧
    readWord defaultConfig (.frame [0x38, 0, 0, 1, 0x2a, 0x83]) = some (.fSetBright 1) := by decide

theorem test_witness_ExtraRequestBytesAreIgnored :
    decodeRequest otherPort [0x00, 0x0f, 0xff] = .ok (.encMin 4095) ∧
    decoded [0x4b] = .ok .cmdToggle ∧ decoded [0x46, 0x00] = .ok (.cmdSetSegs none) := by decide

theorem test_witness_FrameKindsAreMatchAndMask :
    defaultOpcodes.distinct ∧
    be [0x38, 0x00, 0x01, 0x00, 0x2e, 0x83] &&& FrameKind.setSegs.form.mask =
      FrameKind.setSegs.matchNumber defaultOpcodes := by decide

/-- Both sides of each equivalence are met, by a frame and by the historical message (U1). -/
theorem test_witness_IllFormedFramesAreRejected :
    wellFormedFrame [0x38, 0, 0, 0, 0, 0x83] = true ∧ wellFormedFrame [0x38, 0, 0, 0x10] = false := by decide

theorem test_witness_EncWEncodesOrRaises :
    decoded [0x01, 0, 0, 0, 0xff, 0x01] = .ok (.encW 255 1) ∧
    255 < 256 ^ 1 ∧ 0 < 1 ∧ 256 ^ 1 ≤ 256 ∧ 0 < 256 ^ 0 ∧ 256 ^ 0 ≤ 1 := by
  decide

theorem test_witness_EncMinEncodesInFewestBytes :
    decoded [0x00, 0, 0, 0x01, 0x00] = .ok (.encMin 256) ∧
    1 ≤ 2 ∧ 256 < 256 ^ 2 ∧ 0 < 256 := by decide

theorem test_witness_EncoderLaws :
    255 < 256 ^ 1 ∧ encodeValue 256 1 = none ∧ minWidth 179 ≤ 3 ∧ encodeValue 179 1 = some [0xb3] ∧
    encodeValue 0xffffff 3 = some [0xff, 0xff, 0xff] := by decide

theorem test_witness_BuildAssemblesOrRaises :
    decoded [0x02, 0x2a, 0x01, 0x20] = .ok (.build 0x2a [0x20]) ∧
    [0x01, 0x02, (0x03 : Byte)].length ≤ 3 ∧ 3 < [0x00, 0x00, 0x00, (0x01 : Byte)].length := by decide

theorem test_witness_FrameBufferMap :
    [(0x20 : Byte)].length ≤ 3 ∧ ∃ t, exec (.build 0x2a [0x20]) State.reset = .next t := ⟨by decide, _, rfl⟩

theorem test_witness_BuildAndItsInverse :
    [0x01, 0x02, (0x03 : Byte)].length ≤ 3 ∧ wellFormedFrame [0x38, 0x00, 0x01, 0x2c, 0x2d, 0x83] = true := by decide

theorem test_witness_ParseReadsOrRaises :
    decoded [0x03, 0x01, 0x38] = .ok (.parse [0x38]) ∧
    17 ≤ blobS1.length ∧ (blobS1.take 16).length < 17 := by decide

theorem test_witness_ParsedFieldsAreMemReads :
    17 ≤ blobS1.length ∧ ∃ t, exec (.parse blobS1) State.reset = .next t := ⟨by decide, _, rfl⟩

/-- Two blobs that differ at offset 0 only, and two that differ at offset 15. -/
theorem test_witness_ParseDependsOnNamedOffsetsOnly :
    17 ≤ blobS1.length ∧ 17 ≤ (blobS1.set 0 0xff).length ∧ 17 ≤ (blobS1.set 15 0xff).length ∧
    (∃ t, exec (.parse blobS1) State.reset = .next t) ∧
    (∃ t, exec (.parse (blobS1.set 0 0xff)) State.reset = .next t) ∧
    (∃ t, exec (.parse (blobS1.set 15 0xff)) State.reset = .next t) :=
  ⟨by decide, by decide, by decide, ⟨_, rfl⟩, ⟨_, rfl⟩, ⟨_, rfl⟩⟩

theorem test_witness_ForwardLookups :
    decoded [0x10, 0x00] = .ok (.n2cAnim []) ∧ decoded [0x11, 0x00] = .ok (.n2cChip []) ∧
    decoded [0x12, 0x00] = .ok (.n2cOrder []) ∧
    State.reset.cfg.tablesAdmissible ∧
    ⟨ascii "meteor", 0xcd⟩ ∈ State.reset.cfg.tables.anim ∧ ⟨ascii "WS2811", 0x03⟩ ∈ State.reset.cfg.tables.chip ∧
    ⟨ascii "GRB", 0x02⟩ ∈ State.reset.cfg.tables.order ∧
    (∀ e ∈ State.reset.cfg.tables.anim, e.name ≠ ascii "GRB") ∧
    (∀ e ∈ State.reset.cfg.tables.chip, e.name ≠ ascii "GRB") ∧
    (∀ e ∈ State.reset.cfg.tables.order, e.name ≠ ascii "meteor") :=
  ⟨by decide, by decide, by decide, test_reset_tables, by decide, by decide, by decide, by decide, by decide, by decide⟩

theorem test_witness_UnsymbolicNamesAreNotFound :
    State.reset.cfg.tablesAdmissible ∧ (([] : Name) = [] ∨ State.reset.cfg.port.nameMax < ([] : Name).length) ∧
    (zeros 17 = [] ∨ State.reset.cfg.port.nameMax < (zeros 17).length) :=
  ⟨test_reset_tables, by decide, by decide⟩

theorem test_witness_ReverseLookups :
    decoded [0x14, 0x01] = .ok (.c2nAnim 0x01) ∧ decoded [0x15, 0x01] = .ok (.c2nChip 0x01) ∧
    decoded [0x16, 0x01] = .ok (.c2nOrder 0x01) ∧
    State.reset.cfg.tablesAdmissible ∧
    ⟨ascii "catch up", 0xd4⟩ ∈ State.reset.cfg.tables.anim ∧ ⟨ascii "P9412", 0x1a⟩ ∈ State.reset.cfg.tables.chip ∧
    ⟨ascii "BGR", 0x05⟩ ∈ State.reset.cfg.tables.order ∧
    (∀ e ∈ State.reset.cfg.tables.anim, e.code ≠ 0xd5) ∧ (∀ e ∈ State.reset.cfg.tables.chip, e.code ≠ 0x1b) ∧
    (∀ e ∈ State.reset.cfg.tables.order, e.code ≠ 0x06) :=
  ⟨by decide, by decide, by decide, test_reset_tables, by decide, by decide, by decide, by decide, by decide, by decide⟩

theorem test_witness_EnumDecodingFallsBack :
    EnumTable.oneToOne defaultAnim ∧ ⟨ascii "meteor", 0xcd⟩ ∈ defaultAnim ∧ ∀ e ∈ defaultAnim, e.code ≠ 0x01 := by
  decide

theorem test_witness_LookupLaws :
    EnumTable.oneToOne defaultOrder ∧ lookupFwd defaultOrder (ascii "GRB") = some 0x02 ∧
    lookupRev defaultOrder 0x02 = some (ascii "GRB") := by decide

theorem test_witness_SourceEntriesAreFound : State.reset.cfg.tablesAdmissible := test_reset_tables

theorem test_witness_IsReadyBothPhases :
    decoded [0x40, 0x00] = .ok (.cmdIsReady none) ∧
    1 ≤ [(0x31 : Byte)].length ∧ ([] : List Byte).length < 1 := by decide

theorem test_witness_GetNameBothPhases :
    decoded [0x4c, 0x00] = .ok (.cmdGetName none) ∧
    18 ≤ (zeros 18).length ∧ (zeros 17).length < 18 := by decide

theorem test_witness_GetRawBothPhases :
    decoded [0x4d, 0x00] = .ok (.cmdGetRaw none) ∧
    17 ≤ (zeros 17).length ∧ (zeros 16).length < 17 := by decide

theorem test_witness_GetSettingsBothPhases :
    decoded [0x4e, 0x00] = .ok (.cmdGetSettings none) ∧
    17 ≤ blobS1.length ∧ (blobS1.take 16).length < 17 := by decide

theorem test_witness_GetSettingsIsGetRawThenParse :
    ∃ t u v, exec (.cmdGetRaw (some blobS1)) State.reset = .next t ∧ t.resp.bind Response.rawOut = some blobS1 ∧
      exec (.parse blobS1) t = .next u ∧ exec (.cmdGetSettings (some blobS1)) State.reset = .next v :=
  ⟨_, _, _, rfl, rfl, rfl, rfl⟩

theorem test_witness_SetColorFrame :
    decoded [0x42, 0x00, 0xff, 0xff, 0xff] = .ok (.cmdSetColor 16777215) ∧
    ((0 : Int) ≤ 16777215 ∧ (16777215 : Int) ≤ 16777215) ∧ ((-1 : Int) < 0 ∨ 16777215 < (-1 : Int)) ∧
    ((16777216 : Int) < 0 ∨ 16777215 < (16777216 : Int)) := by decide

theorem test_witness_SpeedAndBrightnessFrames :
    decoded [0x43, 0, 0, 0, 0xff] = .ok (.cmdSetSpeed 255) ∧
    decoded [0x44, 0, 0, 0x01, 0x00] = .ok (.cmdSetBright 256) ∧
    ((0 : Int) ≤ 0 ∧ (0 : Int) ≤ 255) ∧ ((0 : Int) ≤ 255 ∧ (255 : Int) ≤ 255) ∧ ((-1 : Int) < 0 ∨ 255 < (-1 : Int)) ∧
    ((256 : Int) < 0 ∨ 255 < (256 : Int)) := by decide

theorem test_witness_SetWhiteFrame :
    decoded [0x45, 0x00] = .ok (.cmdSetWhite none) ∧
    ((0 : Int) ≤ 255 ∧ (255 : Int) ≤ 255) ∧ ((-1 : Int) < 0 ∨ 255 < (-1 : Int)) ∧
    ((256 : Int) < 0 ∨ 255 < (256 : Int)) := by decide

theorem test_witness_CountFrames :
    decoded [0x46, 0x00] = .ok (.cmdSetSegs none) ∧
    decoded [0x47, 0x00] = .ok (.cmdSetLeds none) ∧
    ((0 : Int) ≤ 65535 ∧ (65535 : Int) ≤ 65535) ∧ ((-1 : Int) < 0 ∨ 65535 < (-1 : Int)) ∧
    ((65536 : Int) < 0 ∨ 65535 < (65536 : Int)) := by decide

theorem test_witness_FixedFrameCommands :
    decoded [0x41, 0x01] = .ok (.cmdSetPower true) ∧ decoded [0x4a] = .ok .cmdAutoMode ∧
    decoded [0x4b] = .ok .cmdToggle := by decide

/-- The greatest code that is also a mixed animation's (43_commands.md R149). -/
theorem test_witness_SetMonoFrame :
    decoded [0x48, 0xb3] = .ok (.cmdSetMono 0xb3) ∧ (0xb3 : Byte).toNat ≤ 179 := by decide

theorem test_witness_SetMixedFrame :
    decoded [0x49, 0, 0, 0, 0xb4] = .ok (.cmdSetMixed 180) ∧
    ((1 : Int) ≤ 1 ∧ (1 : Int) ≤ 180) ∧ ((1 : Int) ≤ 180 ∧ (180 : Int) ≤ 180) ∧ ((0 : Int) < 1 ∨ 180 < (0 : Int)) ∧
    ((181 : Int) < 1 ∨ 180 < (181 : Int)) := by decide

/-- The encoder's bytes for a two-byte command (P5), and the mixed animation at its greatest index. -/
theorem test_witness_ValueCommandsAreEncWThenBuild :
    (∃ t, exec (.encW 300 2) State.reset = .next t ∧ t.resp.bind Response.bytes = some [0x01, 0x2c]) ∧
    ((Instr.cmdSetLeds (some ((300 : Nat) : Int)), 2, State.reset.cfg.opcodes.setLeds) =
      (Instr.cmdSetLeds (some ((300 : Nat) : Int)), 2, State.reset.cfg.opcodes.setLeds)) ∧
    (∃ t, exec (.encW 179 1) State.reset = .next t ∧ t.resp.bind Response.bytes = some [0xb3]) ∧ 179 ≤ 179 :=
  ⟨⟨_, rfl, rfl⟩, rfl, ⟨_, rfl, rfl⟩, by decide⟩

theorem test_witness_FramesAreSentAsTheyAre :
    readFrame State.reset.cfg.opcodes [0x38, 0, 0x01, 0x00, 0x2e, 0x83] = .ok (.fSetSegs 0x01 0x00) ∧
    ∃ t, exec (.fSetSegs 0x01 0x00) State.reset = .next t := ⟨by decide, _, rfl⟩

theorem test_witness_ErrorsHaveNoOtherEffect :
    ∃ t r, exec (.cmdSetBright 256) State.reset = .next t ∧ t.resp = some r ∧ r.status ≠ .ok :=
  ⟨_, _, rfl, rfl, by decide⟩

/-- One instruction that raises, one that does not. -/
theorem test_witness_RangeErrorCauses :
    (∃ t, exec (.cmdSetMixed 181) State.reset = .next t ∧ statusOf t = some .rangeError) ∧
    (∃ t, exec (.cmdSetMixed 180) State.reset = .next t ∧ statusOf t = some .ok) := ⟨⟨_, rfl, rfl⟩, ⟨_, rfl, rfl⟩⟩

theorem test_witness_MalformedResponseCauses :
    (∃ t, exec (.cmdGetName (some (zeros 17))) State.reset = .next t ∧ statusOf t = some .malformedResponse) ∧
    (∃ t, exec (.cmdGetName (some (zeros 18))) State.reset = .next t ∧ statusOf t = some .ok) :=
  ⟨⟨_, rfl, rfl⟩, ⟨_, rfl, rfl⟩⟩

theorem test_witness_WarningsComeFromDecodingOnly :
    ∃ t r, exec (.c2nAnim 0x01) State.reset = .next t ∧ t.resp = some r ∧ r.warnBits ≠ warn000 :=
  ⟨_, _, rfl, rfl, by decide⟩

theorem test_witness_WireTraceFollowsResponses :
    (∃ t r, exec (.build 0x2a []) State.reset = .next t ∧ t.resp = some r ∧ r.rspLen = none) ∧
    (∃ t r, exec (.cmdGetName none) State.reset = .next t ∧ t.resp = some r ∧ r.rspLen = some 18) :=
  ⟨⟨_, _, rfl, rfl, rfl⟩, ⟨_, _, rfl, rfl, rfl⟩⟩

/-- Two states with the same constants, one of them in the middle of a query. -/
theorem test_witness_ResponsesDependOnRequestOnly :
    State.reset.cfg = (withLine (some .isReady) [.reset]).cfg ∧
    (∃ t, exec .cmdToggle State.reset = .next t) ∧
    (∃ t, exec .cmdToggle (withLine (some .isReady) [.reset]) = .next t) := ⟨rfl, ⟨_, rfl⟩, ⟨_, rfl⟩⟩

theorem test_witness_StepRunsTheDecodedInstruction :
    (withLine none [.request [0x4b]]).query = none ∧
    (withLine none [.request [0x4b]]).inbox = [.request [0x4b]] ∧
    decodeRequest (withLine none [.request [0x4b]]).cfg.port [0x4b] = .ok .cmdToggle ∧
    (withLine none [.term .fToggle]).query = none ∧ (withLine none [.term .fToggle]).inbox = [.term .fToggle] := by decide

/-- Both clauses; the second port is another than the default. -/
theorem test_witness_PlacedTableWordRuns :
    (let s := { State.reset with cfg := { defaultConfig with port := otherPort } }
     readWord s.cfg (tableCode s.cfg.port 8 0x46) = some (.cmdSetSegs none)) ∧
    State.reset.cfg.port = defaultPort ∧ State.reset.cfg.opcodes = defaultOpcodes ∧
    decodeTableWord 8 0x4b = some .cmdToggle := by decide

theorem test_witness_IllegalFunctionIsRaised :
    (withLine none [.request [0x13, 0x01]]).query = none ∧
    (withLine none [.request [0x13, 0x01]]).inbox = [.request (0x13 :: [0x01])] ∧
    (0x13 : Byte).toNat ∉ [0x00, 0x01, 0x02, 0x03, 0x10, 0x11, 0x12, 0x14, 0x15, 0x16, 0x40, 0x41, 0x42, 0x43, 0x44,
      0x45, 0x46, 0x47, 0x48, 0x49, 0x4a, 0x4b, 0x4c, 0x4d, 0x4e] ∧
    wellFormedFrame [0x38, 0, 0, 0, 0xaa, 0x83] = true ∧
    (withLine none [.request [0x38, 0, 0, 0, 0xaa, 0x83]]).query = none ∧
    (withLine none [.request [0x38, 0, 0, 0, 0xaa, 0x83]]).inbox = [.request [0x38, 0, 0, 0, 0xaa, 0x83]] := by decide

theorem test_witness_NoRequestIsTakenDuringAQuery :
    (withLine (some .isReady) [.request [0x4b]]).query = some ⟨.isReady, 0⟩ ∧
    ∀ e ∈ (withLine (some .isReady) [.request [0x4b]]).inbox,
      e.fromHost = true ∧
        ∀ raw, e.asks (withLine (some .isReady) [.request [0x4b]]).cfg ≠ some (Query.isReady.completion raw) := by
  refine ⟨rfl, fun e he => ?_⟩
  obtain rfl : e = .request [0x4b] := by simpa [withLine] using he
  exact ⟨rfl, fun raw h => by cases h⟩

theorem test_witness_TransportBytesCompleteTheQuery :
    (withLine (some .getRaw) [.request [0x4b], .rsp 0 blobS1]).query = some ⟨.getRaw, 0⟩ ∧
    (withLine (some .getRaw) [.request [0x4b], .rsp 0 blobS1]).inbox =
      [.request [0x4b]] ++ .rsp 0 blobS1 :: [] ∧
    ∀ e ∈ [Event.request [0x4b]], e.fromHost = true ∧
      ∀ bytes, e.asks (withLine (some .getRaw) [.request [0x4b], .rsp 0 blobS1]).cfg ≠
        some (Query.getRaw.completion bytes) := by
  refine ⟨rfl, rfl, fun e he => ?_⟩
  obtain rfl : e = .request [0x4b] := by simpa using he
  exact ⟨rfl, fun raw h => by cases h⟩

/-- On the query in progress, on a command that is over, and with no query. -/
theorem test_witness_TransportFailureEndsTheCommand :
    (withLine (some .getName) [.failed 0 .timeoutError]).inbox = .failed 0 .timeoutError :: [] ∧
    (∀ p, (withLine (some .getName) [.failed 0 .timeoutError]).query = some p → p.call = 0) ∧
    { midLate with inbox := [.failed 0 .timeoutError] }.inbox = .failed 0 .timeoutError :: [] ∧
    (∀ p, midLate.query = some p → p.call ≠ 0) ∧
    (withLine none [.failed 0 .connectionError]).inbox = .failed 0 .connectionError :: [] ∧
    (∀ p, (withLine none [.failed 0 .connectionError]).query = some p → p.call ≠ 0) := by
  refine ⟨rfl, ?_, rfl, ?_, rfl, ?_⟩ <;> rintro p ⟨⟩ <;> decide

theorem test_witness_ResetAbandonsAndKeepsConstants :
    (withLine (some .getName) [.reset, .rsp 0 []]).inbox = .reset :: [.rsp 0 []] := rfl

/-- With no query in progress, with another one in progress, and with nothing in line. -/
theorem test_witness_UnaskedBytesAreNeverRead :
    (∀ p, (withLine none [.rsp 0 [0x31]]).query = some p → p.call ≠ 0) ∧
    (withLine none [.rsp 0 [0x31]]).inbox = .rsp 0 [0x31] :: [] ∧
    (∀ p, midLate.query = some p → p.call ≠ 0) ∧
    { midLate with inbox := [.rsp 0 [0x31]] }.inbox = .rsp 0 [0x31] :: [] ∧ (withLine none []).inbox = [] := by
  refine ⟨?_, rfl, ?_, rfl, rfl⟩ <;> rintro p ⟨⟩
  decide

/-- CMD.GETSETTINGS is in progress, a reset arrives, CMD.ISREADY's format request, and the bytes of the abandoned
query. -/
def lateBytes : State :=
  { withLine (some .getSettings) [.reset, .request [0x40, 0x00], .rsp 0 blobS1] with
    wire := [⟨[0x38, 0, 0, 0, 0x10, 0x83], true, 17⟩] }

theorem test_witness_AbandonedBytesAreHandedToNobody :
    lateBytes.query = some ⟨.getSettings, 0⟩ ∧ 0 < lateBytes.wire.length ∧
    lateBytes.inbox = .reset :: .request [0x40, 0x00] :: .rsp 0 blobS1 :: [] ∧
    (Event.request [0x40, 0x00]).asks lateBytes.cfg = some (.cmdIsReady none) := ⟨rfl, by decide, rfl, rfl⟩

theorem test_witness_SettingsQueryEndToEnd :
    (withLine none [.request [0x4e, 0x00], .rsp 0 blobS1]).query = none ∧ 17 ≤ blobS1.length ∧
    (withLine none [.request [0x4e, 0x00], .rsp 0 blobS1]).inbox =
      .request [0x4e, 0x00] ::
        .rsp (withLine none [.request [0x4e, 0x00], .rsp 0 blobS1]).wire.length blobS1 :: [] :=
  ⟨rfl, by decide, rfl⟩

theorem test_witness_StepAppendsAndKeepsConstants :
    ∃ t, step (withLine none [.request [0x4b]]) = .next t := ⟨_, rfl⟩

/-- A state in the middle of CMD.ISREADY, its answer in line. -/
def midQuery : State :=
  { withLine (some .isReady) [.rsp 0 [0x31]] with
    wire := [⟨[0x38, 0, 0, 0, 0x2f, 0x83], true, 1⟩]
    resp := some { status := .ok, warnBits := warn000, frame := some [0x38, 0, 0, 0, 0x2f, 0x83], expect := some true,
                   rspLen := some 1 }
    responses := [{ status := .ok, warnBits := warn000, frame := some [0x38, 0, 0, 0, 0x2f, 0x83], expect := some true,
                    rspLen := some 1 }]
    frame := [(0, 0x38), (1, 0), (2, 0), (3, 0), (4, 0x2f), (5, 0x83)] }

theorem test_witness_StepKeepsTheInvariant : Inv midQuery ∧ ∃ t, step midQuery = .next t := by
  refine ⟨⟨⟨by decide, test_reset_tables⟩, rfl, rfl, ?_, .inr rfl, fun _ => ⟨_, _, rfl, rfl, rfl, rfl, ?_⟩, ?_, ?_⟩, _, rfl⟩
  · simp [midQuery, responseWf, wellFormedFrame, frameLen, head, tail]
  · intro a ha
    have h : ∀ k, k < 6 → k ≠ a := by omega
    simp [midQuery, Memory.byteAt, h]
  · intro w hw
    simp only [midQuery, List.mem_singleton] at hw
    subst hw
    exact ⟨.isReady, 0, 0, 0, rfl, rfl, rfl, rfl⟩
  · rintro p ⟨⟩
    exact ⟨rfl, _, rfl, rfl, rfl⟩

end Sys2Proof.Tests
end

section
/-! The Value Encoder (40_value_encoder.md R90 to R93): byte sequences and their hexadecimal form, the least width, the
encoder, and the request a `fn` byte selects. -/

namespace Sys2Proof

open Machine Laws

/-! ### The requests a `fn` byte selects -/

/-- Operands that are read whole make the instruction of their operation. -/
theorem exists_of_instrOf {α : Type} {fn : Byte} {o : Operand α} {mk : α → Instr} {i : Instr}
    (h : instrOf fn o mk = .ok i) : ∃ x, mk x = i := by
  cases o with
  | got x rest => exact ⟨x, Decoded.ok.inj h⟩
  | short => cases h
  | tooLarge => cases h

/-- Every operation's operands give instructions of its own row only (30_encoding.md R66). -/
theorem rowOf_of_decodeOperands {p : Port} {o : Op} {operands : List Byte} {i : Instr}
    (h : decodeOperands p o operands = .ok i) : rowOf i = .inl o := by
  cases o
  case autoMode => cases h; rfl
  case toggle => cases h; rfl
  all_goals
    obtain ⟨x, rfl⟩ := exists_of_instrOf h
    rfl

/-- An operation is found under its own `fn` byte only (30_encoding.md R66). -/
theorem fn_of_opOfFn {fn : Byte} {o : Op} (h : opOfFn fn = some o) : o.fn = fn := by
  simpa using List.find?_some h

/-- A request that decodes begins with the `fn` byte of the instruction's row. -/
theorem head_of_decodeRequest {p : Port} {bytes : List Byte} {i : Instr} (h : decodeRequest p bytes = .ok i) :
    ∃ o : Op, rowOf i = .inl o ∧ bytes.head? = some o.fn := by
  cases bytes with
  | nil => cases h
  | cons fn operands =>
    rw [decodeRequest] at h
    split at h
    next => cases h
    next o ho => exact ⟨o, rowOf_of_decodeOperands h, by rw [fn_of_opOfFn ho, List.head?_cons]⟩

/-- No two operations share a `fn` byte (30_encoding.md R66). -/
theorem Op.fn_injective {o o' : Op} (h : o.fn = o'.fn) : o = o' := by
  have ho := opOfFn_fn o
  rw [h, opOfFn_fn o'] at ho
  exact (Option.some.inj ho).symm

/-- The `fn` byte of an operation selects the instructions of that operation's row. -/
theorem fnSelects_of_rowOf (o : Op) {q : Instr → Prop} (hq : ∀ i, q i ↔ rowOf i = .inl o) : fnSelects o.fn q := by
  intro port bytes i hi
  obtain ⟨o', hrow, hhead⟩ := head_of_decodeRequest hi
  rw [hq, hrow, hhead, Sum.inl.injEq, Option.some.injEq]
  exact ⟨congrArg Op.fn, Op.fn_injective⟩

/-! ### Byte sequences (00_scope.md R11) -/

/-- Byte `i` of `bytes_be(v, n)`, counted from the most significant one. -/
theorem bytesBE_getD (v : Nat) {n i : Nat} (h : i < n) :
    ((bytesBE v n).getD i 0).toNat = v / 256 ^ (n - 1 - i) % 256 := by
  induction n generalizing v with
  | zero => omega
  | succ n ih =>
    rw [bytesBE]
    rcases Nat.lt_succ_iff_lt_or_eq.mp h with hi | rfl
    · have hexp : n + 1 - 1 - i = (n - 1 - i) + 1 := by omega
      rw [List.getD_append _ _ _ _ (by simpa using hi), ih _ hi, hexp, Nat.pow_succ', Nat.div_div_eq_div_mul]
    · rw [List.getD_append_right _ _ _ _ (by simp)]
      simp

@[simp] theorem zeros_length (k : Nat) : (zeros k).length = k := List.length_replicate

@[simp] theorem be_zeros (k : Nat) : be (zeros k) = 0 := by
  induction k with
  | zero => rfl
  | succ k ih => rw [zeros, List.replicate_succ', be_append_singleton, ← zeros, ih]; rfl

/-- More bytes than a value needs: zeros on the high-order side (40_value_encoder.md R93 (d)). -/
theorem bytesBE_add {v n : Nat} (k : Nat) (h : v < 256 ^ n) : bytesBE v (k + n) = zeros k ++ bytesBE v n := by
  have hbe : be (zeros k ++ bytesBE v n) = v := by
    rw [be_append, be_zeros, be_bytesBE_of_lt h, Nat.zero_mul, Nat.zero_add]
  simpa [hbe] using bytesBE_be (zeros k ++ bytesBE v n)

/-- Padding a value's bytes for the PAYLOAD field is encoding it in three bytes (40_value_encoder.md R93 (f)). -/
theorem pad3_bytesBE {v w : Nat} (hw : w ≤ 3) (h : v < 256 ^ w) : pad3 (bytesBE v w) = bytesBE v 3 := by
  rw [pad3, bytesBE_length, payloadLen, ← bytesBE_add (3 - w) h, Nat.sub_add_cancel hw]

/-! ### The least width (40_value_encoder.md R91) -/

theorem one_le_minWidth (v : Nat) : 1 ≤ minWidth v := Nat.le_max_left ..

/-- A number that fits in `k` bits has at most `k` binary digits. -/
theorem bitlen_le {v k : Nat} (h : v < 2 ^ k) : bitlen v ≤ k := by
  rw [bitlen]
  split
  next => exact Nat.zero_le k
  next hv => exact (Nat.log2_lt hv).mpr h

/-- No fewer bytes hold the value. -/
theorem minWidth_le {v n : Nat} (hn : 1 ≤ n) (h : v < 256 ^ n) : minWidth v ≤ n := by
  have hbits : bitlen v ≤ 8 * n := bitlen_le (by rwa [Nat.pow_mul])
  rw [minWidth]
  omega

/-- In the fewest bytes a positive value has no leading zero: without it, one byte less would do. -/
theorem bytesBE_minWidth_head {v : Nat} (hv : 0 < v) : (bytesBE v (minWidth v)).head? ≠ some 0 := by
  intro hhead
  obtain ⟨rest, hrest⟩ := List.head?_eq_some_iff.mp hhead
  have hlen : rest.length + 1 = minWidth v := by simpa using (congrArg List.length hrest).symm
  have hbe : be rest = v := by
    rw [← be_bytesBE_of_lt (lt_pow_minWidth v), hrest, ← List.singleton_append, be_append]
    simp
  have hfit : v < 256 ^ rest.length := hbe ▸ be_lt rest
  have hpos : 1 ≤ rest.length := by
    by_contra h0
    rw [show rest.length = 0 by omega] at hfit
    omega
  have := minWidth_le hpos hfit
  omega

/-! ### Hexadecimal digits (40_value_encoder.md R92) -/

theorem hexLc_cons (b : Byte) (s : List Byte) :
    hexLc (b :: s) = hexDigitLc (b.toNat / 16) :: hexDigitLc (b.toNat % 16) :: hexLc s := rfl

theorem hexLc_length (s : List Byte) : (hexLc s).length = 2 * s.length := by
  induction s with
  | nil => rfl
  | cons b s ih => rw [hexLc_cons, List.length_cons, List.length_cons, List.length_cons, ih]; omega

theorem hexValue_hexDigitLc {n : Nat} (h : n < 16) : hexValue (hexDigitLc n) = some n := by
  have hall : ∀ k : Fin 16, hexValue (hexDigitLc k) = some k.val := by decide
  exact hall ⟨n, h⟩

/-- Two characters that are the digits of a byte's nibbles read back as the byte. -/
theorem unhex_cons_byte {b : Byte} {s : List Byte} {hi lo : Char} {rest : List Char}
    (hhi : hexValue hi = some (b.toNat / 16)) (hlo : hexValue lo = some (b.toNat % 16)) (hrest : unhex rest = some s) :
    unhex (hi :: lo :: rest) = some (b :: s) := by
  have hb : BitVec.ofNat 8 (b.toNat / 16 * 16 + b.toNat % 16) = b := by
    rw [Nat.div_add_mod', BitVec.ofNat_toNat, BitVec.setWidth_eq]
  simp only [unhex, hhi, hlo, hrest, hb]

/-- The lower-case rendering reads back (00_scope.md R11). -/
theorem unhex_hexLc (s : List Byte) : unhex (hexLc s) = some s := by
  induction s with
  | nil => rfl
  | cons b s ih =>
    have hb : b.toNat < 256 := b.isLt
    rw [hexLc_cons]
    exact unhex_cons_byte (hexValue_hexDigitLc (by omega)) (hexValue_hexDigitLc (by omega)) ih

/-! ### The encoder (40_value_encoder.md R90) -/

theorem encodeValue_eq_none_iff {v w : Nat} : encodeValue v w = none ↔ 256 ^ w ≤ v := by
  simp [encodeValue]

theorem encodeValue_eq_some_iff {v w : Nat} {bs : List Byte} :
    encodeValue v w = some bs ↔ v < 256 ^ w ∧ bs = bytesBE v w := by
  by_cases h : v < 256 ^ w
  · rw [encodeValue_of_lt h, Option.some.injEq, eq_comm, and_iff_right h]
  · simp [encodeValue_of_le (Nat.le_of_not_lt h), h]

/-- Encoding and reading back: the bytes encoded have the value (40_value_encoder.md R93 (a)). -/
theorem be_of_encodeValue {v w : Nat} {bs : List Byte} (h : encodeValue v w = some bs) : be bs = v := by
  obtain ⟨hfit, rfl⟩ := encodeValue_eq_some_iff.mp h
  exact be_bytesBE_of_lt hfit

theorem exec_encW_of_lt {value width : Nat} (s : State) (h : value < 256 ^ width) :
    exec (.encW value width) s =
      .next (answered s [] [] { status := .ok, warnBits := warn000, bytes := some (bytesBE value width) }) := by
  rw [exec_encW, execEncW, withEncoded, encodeValue_of_lt h]
  rfl

theorem exec_encW_of_le {value width : Nat} (s : State) (h : 256 ^ width ≤ value) :
    exec (.encW value width) s = .next (raised s [] .rangeError (some value)) := by
  rw [exec_encW, execEncW, withEncoded, encodeValue_of_le h]
  rfl

/-! ### The obligations -/

/-- Settles O7: the two outcomes of the encoder, and `bytesBE` byte by byte. -/
theorem encWEncodesOrRaises : Obligations.EncWEncodesOrRaises := by
  refine ⟨fnSelects_of_rowOf .encW fun i => ?_, fun value width s => ⟨fun hfit => ?_, exec_encW_of_le s⟩⟩
  · cases i <;> simp [rowOf]
  · exact ⟨bytesBE value width, bytesBE_length _ _, be_bytesBE_of_lt hfit, fun _ => bytesBE_getD value,
      exec_encW_of_lt s hfit⟩

/-- Settles O8: the bytes are those of the least width, which holds the value and is met by no shorter one. -/
theorem encMinEncodesInFewestBytes : Obligations.EncMinEncodesInFewestBytes := by
  refine ⟨fnSelects_of_rowOf .encMin fun i => ?_, fun value s => ?_⟩
  · cases i <;> simp [rowOf]
  · have hlen : (bytesBE value (minWidth value)).length = minWidth value := bytesBE_length _ _
    refine ⟨bytesBE value (minWidth value), be_bytesBE_of_lt (lt_pow_minWidth value), hlen, fun n hn hfit => ?_,
      bytesBE_minWidth_head, ?_, rfl⟩
    · exact hlen.trans_le (minWidth_le hn hfit)
    · rintro rfl
      rfl

/-- Settles O9: each law from the encoder's two outcomes and the facts on `bytesBE` and `minWidth`. -/
theorem encoderLaws : Obligations.EncoderLaws := by
  intro v w
  have hmin := lt_pow_minWidth v
  refine ⟨fun hfit => ?roundTrip, encodeValue_eq_none_iff, ?leastWidth, fun hw => ?leadingZeros,
    fun v' bs h h' => ?injective, fun hw bs h => ?padding⟩
  case roundTrip =>
    exact ⟨bytesBE v w, encodeValue_of_lt hfit, be_bytesBE_of_lt hfit, bytesBE_length v w,
      by rw [hexLc_length, bytesBE_length], unhex_hexLc _⟩
  case leastWidth =>
    exact ⟨encodeValue_of_lt hmin, one_le_minWidth v, fun _ => minWidth_le⟩
  case leadingZeros =>
    have hfit : v < 256 ^ w := Nat.lt_of_lt_of_le hmin (Nat.pow_le_pow_right (by decide) hw)
    rw [encodeValue_of_lt hfit, ← bytesBE_add _ hmin, Nat.sub_add_cancel hw]
  case injective =>
    rw [← be_of_encodeValue h, be_of_encodeValue h']
  case padding =>
    obtain ⟨hfit, rfl⟩ := encodeValue_eq_some_iff.mp h
    have hfit3 : v < 256 ^ 3 := Nat.lt_of_lt_of_le hfit (Nat.pow_le_pow_right (by decide) hw)
    rw [pad3_bytesBE hw hfit]
    exact ⟨encodeValue_of_lt hfit3, rfl⟩

end Sys2Proof
end

section
/-! The Frame Codec (41_frame_codec.md R100 and R101): the two outcomes of BUILD and of PARSE. -/

namespace Sys2Proof

open Machine Laws

/-! ### The rows of BUILD and PARSE (30_encoding.md R66) -/

theorem exists_build_iff_rowOf (i : Instr) : (∃ o p, i = .build o p) ↔ rowOf i = .inl .build := by
  cases i <;> simp [rowOf]

theorem exists_parse_iff_rowOf (i : Instr) : (∃ r, i = .parse r) ↔ rowOf i = .inl .parse := by
  cases i <;> simp [rowOf]

/-! ### BUILD (41_frame_codec.md R100) -/

theorem exec_build_of_le {payload : List Byte} (opcode : Byte) (s : State) (h : payload.length ≤ 3) :
    exec (.build opcode payload) s =
      .next (answered s (Memory.ofBytes (head :: pad3 payload ++ [opcode, tail])) []
        { status := .ok, warnBits := warn000, frame := some (head :: pad3 payload ++ [opcode, tail]) }) := by
  rw [exec_build, execBuild, withFrame_eq _ _ _ _ (State.start_frame s []), if_pos h]
  rfl

theorem exec_build_of_lt {payload : List Byte} (opcode : Byte) (s : State) (h : 3 < payload.length) :
    exec (.build opcode payload) s = .next (raised s [] .rangeError (some payload.length)) := by
  rw [exec_build, execBuild, withFrame_eq _ _ _ _ (State.start_frame s []), if_neg (Nat.not_le.mpr h), raise_start]

/-! ### PARSE (41_frame_codec.md R101) -/

theorem exec_parse_of_le {raw : List Byte} (s : State) (h : 17 ≤ raw.length) :
    exec (.parse raw) s = .next (answered s [] raw (parsedResponse s.cfg.tables raw)) := by
  have hlen : ¬raw.length < settingsLen := Nat.not_lt.mpr h
  rw [exec_parse, execParse, if_neg hlen, parseRaw_eq _ raw (State.start_raw s raw) h, respond_start, State.start_cfg]

theorem exec_parse_of_lt {raw : List Byte} (s : State) (h : raw.length < 17) :
    exec (.parse raw) s = .next (raised s raw .malformedResponse (some raw.length)) := by
  have hlen : raw.length < settingsLen := h
  rw [exec_parse, execParse, if_pos hlen, raise_start]

/-! ### The obligations -/

/-- Settles O11: the frame driven is HEAD, the padded payload, the opcode and TAIL; above three bytes BUILD raises. -/
theorem buildAssemblesOrRaises : Obligations.BuildAssemblesOrRaises :=
  ⟨fnSelects_of_rowOf .build exists_build_iff_rowOf, fun opcode payload s =>
    ⟨fun hfits => ⟨head :: pad3 payload ++ [opcode, tail], rfl, exec_build_of_le opcode s hfits⟩,
      exec_build_of_lt opcode s⟩⟩

/-- Settles O14: the eleven reads of a blob that is long enough give its record and its warnings; a shorter one raises
before any field is read. -/
theorem parseReadsOrRaises : Obligations.ParseReadsOrRaises :=
  ⟨fnSelects_of_rowOf .parse exists_parse_iff_rowOf, fun _ s => ⟨exec_parse_of_le s, exec_parse_of_lt s⟩⟩

end Sys2Proof
end

section
/-! The Enumeration Tables (42_enum_tables.md R120 to R130): a search of a one-to-one table finds exactly the entry with
its key, so the two searches are inverse to each other, and each lookup operation ends in one of two ways. -/

namespace Sys2Proof

open Machine Laws

/-! ### The searches (42_enum_tables.md R120 and R121) -/

/-- Where no two elements share a key, a search by key finds exactly the element with that key. -/
theorem find?_key_eq_some_iff {α β : Type} [BEq β] [LawfulBEq β] {key : α → β} {l : List α} (h : (l.map key).Nodup)
    {k : β} {x : α} : (l.find? fun y => key y == k) = some x ↔ x ∈ l ∧ key x = k := by
  constructor
  · intro hx
    exact ⟨List.mem_of_find?_eq_some hx, eq_of_beq (List.find?_some (p := fun y => key y == k) hx)⟩
  · rintro ⟨hx, rfl⟩
    obtain ⟨y, hy⟩ : ∃ y, (l.find? fun y => key y == key x) = some y :=
      Option.isSome_iff_exists.mp (List.find?_isSome.mpr ⟨x, hx, beq_self_eq_true _⟩)
    have hkey : key y = key x := eq_of_beq (List.find?_some (p := fun y => key y == key x) hy)
    rw [hy, List.inj_on_of_nodup_map h (List.mem_of_find?_eq_some hy) hx hkey]

theorem entry_mem_iff {t : EnumTable} {n : Name} {c : Byte} :
    (⟨n, c⟩ : EnumEntry) ∈ t ↔ ∃ e ∈ t, e.name = n ∧ e.code = c := by
  constructor
  · intro he
    exact ⟨_, he, rfl, rfl⟩
  · rintro ⟨e, he, rfl, rfl⟩
    exact he

theorem lookupFwd_eq_some_iff {t : EnumTable} (h : EnumTable.oneToOne t) {n : Name} {c : Byte} :
    lookupFwd t n = some c ↔ ⟨n, c⟩ ∈ t := by
  simp only [lookupFwd, Option.map_eq_some_iff, find?_key_eq_some_iff h.1, and_assoc, entry_mem_iff]

theorem lookupRev_eq_some_iff {t : EnumTable} (h : EnumTable.oneToOne t) {c : Byte} {n : Name} :
    lookupRev t c = some n ↔ ⟨n, c⟩ ∈ t := by
  simp only [lookupRev, Option.map_eq_some_iff, find?_key_eq_some_iff h.2, and_assoc, entry_mem_iff,
    and_comm (a := EnumEntry.code _ = c)]

/-- The two searches are inverse to each other (42_enum_tables.md R130 (a) and (b)). -/
theorem lookupFwd_eq_some_iff_lookupRev {t : EnumTable} (h : EnumTable.oneToOne t) {n : Name} {c : Byte} :
    lookupFwd t n = some c ↔ lookupRev t c = some n :=
  (lookupFwd_eq_some_iff h).trans (lookupRev_eq_some_iff h).symm

theorem lookupFwd_eq_none_iff {t : EnumTable} {n : Name} : lookupFwd t n = none ↔ ∀ e ∈ t, e.name ≠ n := by
  simp [lookupFwd]

theorem lookupRev_eq_none_iff {t : EnumTable} {c : Byte} : lookupRev t c = none ↔ ∀ e ∈ t, e.code ≠ c := by
  simp [lookupRev]

/-- The scan and the precomputed reverse table agree, on any table (42_enum_tables.md R130 (d)): both stop at the first
entry with the code. -/
theorem lookupRev_eq_lookup_reverseTable (t : EnumTable) (c : Byte) : lookupRev t c = (reverseTable t).lookup c := by
  induction t with
  | nil => rfl
  | cons e t ih =>
    rw [lookupRev, reverseTable] at ih
    rw [lookupRev, reverseTable, List.map_cons, List.lookup_cons, List.find?_cons, BEq.comm (a := c)]
    cases e.code == c with
    | true => rfl
    | false => exact ih

/-! ### Decoding a code (41_frame_codec.md R102) -/

theorem decodeEnum_of_mem {t : EnumTable} (h : EnumTable.oneToOne t) {e : EnumEntry} (he : e ∈ t) :
    decodeEnum t e.code = .known e.name e.code := by
  rw [decodeEnum, (lookupRev_eq_some_iff h).mpr he]

theorem decodeEnum_of_forall_ne {t : EnumTable} {c : Byte} (h : ∀ e ∈ t, e.code ≠ c) : decodeEnum t c = .raw c := by
  rw [decodeEnum, lookupRev_eq_none_iff.mpr h]

/-! ### The two outcomes of a forward lookup (42_enum_tables.md R122) -/

theorem nameToCode_of_mem {t : EnumTable} (s : State) (h : EnumTable.oneToOne t) {e : EnumEntry} (he : e ∈ t) :
    nameToCode t e.name s =
      .next (answered s [] [] { status := .ok, warnBits := warn000, code := some e.code }) := by
  rw [nameToCode_eq, (lookupFwd_eq_some_iff h).mpr he]

theorem nameToCode_of_forall_ne {t : EnumTable} (s : State) {n : Name} (h : ∀ e ∈ t, e.name ≠ n) :
    nameToCode t n s = .next (raised s [] .notFound none) := by
  rw [nameToCode_eq, lookupFwd_eq_none_iff.mpr h]

/-! ### The two outcomes of a reverse lookup (42_enum_tables.md R125), `warnOf` being the warning of its table -/

theorem codeToName_of_mem {t : EnumTable} (warnOf : EnumVal → Warn) (s : State) (h : EnumTable.oneToOne t)
    {e : EnumEntry} (he : e ∈ t) :
    codeToName (decodeEnum t e.code) (warnOf (decodeEnum t e.code)) s = .next (answered s [] []
      { status := .ok, warnBits := warnOf (.known e.name e.code), code := some e.code, known := some true,
        name := some e.name }) := by
  rw [decodeEnum_of_mem h he, codeToName_eq, EnumVal.code, EnumVal.isKnown, EnumVal.name]

theorem codeToName_of_forall_ne {t : EnumTable} (warnOf : EnumVal → Warn) (s : State) {c : Byte}
    (h : ∀ e ∈ t, e.code ≠ c) :
    codeToName (decodeEnum t c) (warnOf (decodeEnum t c)) s = .next (answered s [] []
      { status := .ok, warnBits := warnOf (.raw c), code := some c, known := some false }) := by
  rw [decodeEnum_of_forall_ne h, codeToName_eq, EnumVal.code, EnumVal.isKnown, EnumVal.name]

/-! ### The rows of the lookups (30_encoding.md R66) -/

/-- The instructions of each forward lookup's row. -/
theorem exists_n2c_iff_rowOf (i : Instr) :
    ((∃ n, i = .n2cAnim n) ↔ rowOf i = .inl .n2cAnim) ∧ ((∃ n, i = .n2cChip n) ↔ rowOf i = .inl .n2cChip) ∧
      ((∃ n, i = .n2cOrder n) ↔ rowOf i = .inl .n2cOrder) := by
  cases i <;> simp [rowOf]

/-- The instructions of each reverse lookup's row. -/
theorem exists_c2n_iff_rowOf (i : Instr) :
    ((∃ c, i = .c2nAnim c) ↔ rowOf i = .inl .c2nAnim) ∧ ((∃ c, i = .c2nChip c) ↔ rowOf i = .inl .c2nChip) ∧
      ((∃ c, i = .c2nOrder c) ↔ rowOf i = .inl .c2nOrder) := by
  cases i <;> simp [rowOf]

/-! ### The obligations -/

/-- Settles O17: each forward lookup is a search by name in its own table, which is one-to-one. -/
theorem forwardLookups : Obligations.ForwardLookups := by
  refine ⟨fnSelects_of_rowOf .n2cAnim fun i => (exists_n2c_iff_rowOf i).1,
    fnSelects_of_rowOf .n2cChip fun i => (exists_n2c_iff_rowOf i).2.1,
    fnSelects_of_rowOf .n2cOrder fun i => (exists_n2c_iff_rowOf i).2.2, fun s hs => ?_⟩
  obtain ⟨⟨hanim, -⟩, ⟨hchip, -⟩, ⟨horder, -⟩, -⟩ := hs
  exact ⟨fun _ => nameToCode_of_mem s hanim, fun _ => nameToCode_of_mem s hchip, fun _ => nameToCode_of_mem s horder,
    fun _ => nameToCode_of_forall_ne s, fun _ => nameToCode_of_forall_ne s, fun _ => nameToCode_of_forall_ne s⟩

/-- Settles O19: each reverse lookup decodes the code by its own table, which is one-to-one, and warns by that table's
bit. -/
theorem reverseLookups : Obligations.ReverseLookups := by
  refine ⟨fnSelects_of_rowOf .c2nAnim fun i => (exists_c2n_iff_rowOf i).1,
    fnSelects_of_rowOf .c2nChip fun i => (exists_c2n_iff_rowOf i).2.1,
    fnSelects_of_rowOf .c2nOrder fun i => (exists_c2n_iff_rowOf i).2.2, fun s hs => ?_⟩
  obtain ⟨⟨hanim, -⟩, ⟨hchip, -⟩, ⟨horder, -⟩, -⟩ := hs
  exact ⟨fun _ => codeToName_of_mem warnAnim s hanim, fun _ => codeToName_of_mem warnChip s hchip,
    fun _ => codeToName_of_mem warnOrder s horder, fun _ => codeToName_of_forall_ne warnAnim s,
    fun _ => codeToName_of_forall_ne warnChip s, fun _ => codeToName_of_forall_ne warnOrder s⟩

/-- Settles O21: a search of a one-to-one table succeeds exactly on the keys of an entry, so each search undoes the
other, and a search that can be undone is injective. -/
theorem lookupLaws : Obligations.LookupLaws := by
  intro t ht
  have inverse (n : Name) (c : Byte) : lookupFwd t n = some c ↔ lookupRev t c = some n :=
    lookupFwd_eq_some_iff_lookupRev ht
  refine ⟨fun n c => (inverse n c).mp, fun n c => (inverse n c).mpr, fun n n' c h h' => ?fwdInjective,
    fun c c' n h h' => ?revInjective, lookupRev_eq_lookup_reverseTable t, decodeEnum_code t⟩
  case fwdInjective =>
    rw [inverse] at h h'
    exact Option.some.inj (h.symm.trans h')
  case revInjective =>
    rw [← inverse] at h h'
    exact Option.some.inj (h.symm.trans h')

end Sys2Proof
end

section
/-! The command formatters (43_commands.md R141 to R155). A query hands its frame over and then completes or is cut
short; a value-carrying command hands its frame over or raises `RangeError`. What a value-carrying command sends is stated
by the payload bytes: an operand in range that is `be p` plus the bias sends the payload `p`. -/

namespace Sys2Proof

open Machine Laws

/-! ### Operands as payload bytes (00_scope.md R11) -/

theorem be_two (h l : Byte) : (be [h, l] : Int) = h.toNat * 256 + l.toNat := by
  simp [be]

theorem be_three (r g b : Byte) : (be [r, g, b] : Int) = r.toNat * 65536 + g.toNat * 256 + b.toNat := by
  simp only [be, List.foldl_cons, List.foldl_nil]
  omega

/-- Every number below `256^w` is the value of `w` bytes. -/
theorem exists_be_eq {n : Int} {w : Nat} (h0 : 0 ≤ n) (h : n < 256 ^ w) : ∃ p : List Byte, p.length = w ∧ n = be p := by
  obtain ⟨v, rfl⟩ := Int.eq_ofNat_of_zero_le h0
  have hv : v < 256 ^ w := by exact_mod_cast h
  exact ⟨bytesBE v w, bytesBE_length v w, by rw [be_bytesBE_of_lt hv]⟩

/-- A number from 0 to 255 is the value of its byte. -/
theorem toNat_ofInt_byte {n : Int} (h0 : 0 ≤ n) (h : n ≤ 255) : ((BitVec.ofInt 8 n).toNat : Int) = n := by
  rw [BitVec.toNat_ofInt]
  omega

/-! ### Value-carrying commands (43_commands.md R140 and R159) -/

theorem valueCommand_of_mem {lo hi n bias : Int} {p : List Byte} (o : Byte) (s : State) (hp : p.length ≤ 3)
    (hlo : lo ≤ n) (hhi : n ≤ hi) (hn : n = be p + bias) :
    valueCommand lo hi n bias p.length o s = .next (handedOver s (head :: pad3 p ++ [o, tail]) none 0) := by
  have hval : (n - bias).toNat = be p := by omega
  rw [valueCommand, withRange, if_neg (by omega), withEncoded, hval, encodeValue_of_lt (be_lt p), bytesBE_be]
  exact emit_start none s hp

theorem valueCommand_of_not_mem {lo hi n bias : Int} {w : Nat} (o : Byte) (s : State) (h : n < lo ∨ hi < n) :
    valueCommand lo hi n bias w o s = .next (raised s [] .rangeError (some n)) := by
  rw [valueCommand, withRange, if_pos h, raise_start]

/-- A command whose operand is one byte (30_encoding.md R63, form P1). -/
theorem byteCommand_of_mem {n : Int} (o : Byte) (s : State) (h0 : 0 ≤ n) (h : n ≤ 255) :
    valueCommand 0 byteMax n 0 1 o s = .next (handedOver s (frameBytes 0 0 (BitVec.ofInt 8 n) o) none 0) :=
  valueCommand_of_mem (p := [BitVec.ofInt 8 n]) o s (show 1 ≤ 3 by decide) h0 h
    (by rw [be_singleton, toNat_ofInt_byte h0 h, Int.add_zero])

/-- A command whose operand is a count of two bytes (30_encoding.md R63, form P2). -/
theorem countCommand_of_bytes {n : Int} (h l o : Byte) (s : State) (hn : n = h.toNat * 256 + l.toNat) :
    valueCommand 0 wordMax n 0 2 o s = .next (handedOver s (frameBytes 0 h l o) none 0) := by
  have hmax : n ≤ wordMax := by
    have hh := h.isLt
    have hl := l.isLt
    simp only [wordMax]
    omega
  exact valueCommand_of_mem (p := [h, l]) o s (show 2 ≤ 3 by decide) (by omega) hmax (by rw [be_two, hn, Int.add_zero])

theorem exec_cmdSetColor_of_bytes (r g b : Byte) (s : State) :
    exec (.cmdSetColor (r.toNat * 65536 + g.toNat * 256 + b.toNat)) s =
      .next (handedOver s (frameBytes r g b s.cfg.opcodes.setColor) none 0) := by
  have hmax : (r.toNat * 65536 + g.toNat * 256 + b.toNat : Int) ≤ rgbMax := by
    have hr := r.isLt
    have hg := g.isLt
    have hb := b.isLt
    simp only [rgbMax]
    omega
  exact valueCommand_of_mem (p := [r, g, b]) _ s (show 3 ≤ 3 by decide) (by omega) hmax (by rw [be_three, Int.add_zero])

theorem exec_cmdSetMono_eq (code : Byte) (s : State) :
    exec (.cmdSetMono code) s = .next (handedOver s (frameBytes 0 0 code s.cfg.opcodes.setAnimation) none 0) :=
  emit_p1 _ code none s

/-- "`CMD.SETMONO code=c` with `c <= 179`" is CMD.SETMIXED of one more (43_commands.md R149). -/
theorem exec_cmdSetMixed_succ {code : Byte} (s : State) (h : code.toNat ≤ 179) :
    exec (.cmdSetMixed (code.toNat + 1)) s = exec (.cmdSetMono code) s := by
  have hmin : mixedMin ≤ (code.toNat + 1 : Int) := by simp only [mixedMin]; omega
  have hmax : (code.toNat + 1 : Int) ≤ mixedMax := by simp only [mixedMax]; omega
  rw [exec_cmdSetMono_eq]
  exact valueCommand_of_mem (p := [code]) _ s (show 1 ≤ 3 by decide) hmin hmax (by rw [be_singleton])

/-! ### Completion phases (43_commands.md R140 and R156) -/

theorem withResponse_of_le (q : Query) {raw : List Byte} (s : State) (k : State → Result) (h : q.rspLen ≤ raw.length) :
    withResponse q raw s k = k { s.start raw with query := none } := by
  rw [withResponse_eq, if_neg (Nat.not_lt.mpr h)]

theorem withResponse_of_lt (q : Query) {raw : List Byte} (s : State) (k : State → Result) (h : raw.length < q.rspLen) :
    withResponse q raw s k = .next (cutShort s raw) := by
  rw [withResponse_eq, if_pos h]

theorem respond_completion (s : State) (raw : List Byte) (r : Response) :
    State.respond { s.start raw with query := none } r = completed s raw r := rfl

theorem exec_cmdIsReady_of_le {raw : List Byte} (s : State) (h : 1 ≤ raw.length) :
    exec (.cmdIsReady (some raw)) s =
      .next (completed s raw { status := .ok, warnBits := warn000, readyByte := some (raw.getD 0 0) }) := by
  rw [exec_cmdIsReady, execCmdIsReady, withResponse_of_le .isReady s _ h, State.start_raw, byteAt_some raw 0 h, fetched,
    respond_completion]
  rfl

theorem exec_cmdIsReady_of_lt {raw : List Byte} (s : State) (h : raw.length < 1) :
    exec (.cmdIsReady (some raw)) s = .next (cutShort s raw) := by
  rw [exec_cmdIsReady, execCmdIsReady, withResponse_of_lt .isReady s _ h]

theorem exec_cmdGetName_of_le {raw : List Byte} (s : State) (h : 18 ≤ raw.length) :
    exec (.cmdGetName (some raw)) s =
      .next (completed s raw { status := .ok, warnBits := warn000, nameBytes := some (raw.take 18) }) := by
  rw [exec_cmdGetName, execCmdGetName, withResponse_of_le .getName s _ h, State.start_raw,
    fetched_ofBytes raw nameLen _ h, respond_completion]
  rfl

theorem exec_cmdGetName_of_lt {raw : List Byte} (s : State) (h : raw.length < 18) :
    exec (.cmdGetName (some raw)) s = .next (cutShort s raw) := by
  rw [exec_cmdGetName, execCmdGetName, withResponse_of_lt .getName s _ h]

theorem exec_cmdGetRaw_of_le {raw : List Byte} (s : State) (h : 17 ≤ raw.length) :
    exec (.cmdGetRaw (some raw)) s =
      .next (completed s raw { status := .ok, warnBits := warn000, rawOut := some (raw.take 17) }) := by
  rw [exec_cmdGetRaw, execCmdGetRaw, withResponse_of_le .getRaw s _ h, State.start_raw,
    fetched_ofBytes raw settingsLen _ h, respond_completion]
  rfl

theorem exec_cmdGetRaw_of_lt {raw : List Byte} (s : State) (h : raw.length < 17) :
    exec (.cmdGetRaw (some raw)) s = .next (cutShort s raw) := by
  rw [exec_cmdGetRaw, execCmdGetRaw, withResponse_of_lt .getRaw s _ h]

theorem exec_cmdGetSettings_of_le {raw : List Byte} (s : State) (h : 17 ≤ raw.length) :
    exec (.cmdGetSettings (some raw)) s = .next (completed s raw (parsedResponse s.cfg.tables raw)) := by
  rw [exec_cmdGetSettings, execCmdGetSettings, withResponse_of_le .getSettings s _ h,
    parseRaw_eq { s.start raw with query := none } raw (State.start_raw s raw) h, respond_completion, State.start_cfg]

theorem exec_cmdGetSettings_of_lt {raw : List Byte} (s : State) (h : raw.length < 17) :
    exec (.cmdGetSettings (some raw)) s = .next (cutShort s raw) := by
  rw [exec_cmdGetSettings, execCmdGetSettings, withResponse_of_lt .getSettings s _ h]

/-! ### The obligations: the queries -/

/-- Settles O24: the byte read is the one at offset 0, which a response of at least one byte holds. -/
theorem isReadyBothPhases : Obligations.IsReadyBothPhases := by
  refine ⟨fnSelects_of_rowOf .isReady fun i => ?row, fun b => bne_iff_ne, fun s raw =>
    ⟨fixedCommand_eq _ (some .isReady) s, exec_cmdIsReady_of_le s, exec_cmdIsReady_of_lt s⟩⟩
  case row => cases i <;> simp [rowOf]

/-- Settles O25: the name is the first 18 bytes, read whole. -/
theorem getNameBothPhases : Obligations.GetNameBothPhases := by
  refine ⟨fnSelects_of_rowOf .getName fun i => ?row, fun s raw =>
    ⟨fixedCommand_eq _ (some .getName) s, exec_cmdGetName_of_le s, exec_cmdGetName_of_lt s⟩⟩
  case row => cases i <;> simp [rowOf]

/-- Settles O26: the raw settings are the first 17 bytes, read whole. -/
theorem getRawBothPhases : Obligations.GetRawBothPhases := by
  refine ⟨fnSelects_of_rowOf .getRaw fun i => ?row, fun s raw =>
    ⟨fixedCommand_eq _ (some .getRaw) s, exec_cmdGetRaw_of_le s, exec_cmdGetRaw_of_lt s⟩⟩
  case row => cases i <;> simp [rowOf]

/-- Settles O27: CMD.GETRAW's frame, and PARSE of the loaded buffer. -/
theorem getSettingsBothPhases : Obligations.GetSettingsBothPhases := by
  refine ⟨fnSelects_of_rowOf .getSettings fun i => ?row, fun s raw =>
    ⟨fixedCommand_eq _ (some .getSettings) s, exec_cmdGetSettings_of_le s, exec_cmdGetSettings_of_lt s⟩⟩
  case row => cases i <;> simp [rowOf]

/-! ### The obligations: the commands that are no query -/

/-- Settles O29: all three are fixed-frame commands, and CMD.SETPOWER does not read its operand. -/
theorem fixedFrameCommands : Obligations.FixedFrameCommands := by
  refine ⟨fnSelects_of_rowOf .setPower fun i => ?powerRow, fnSelects_of_rowOf .autoMode fun i => ?autoRow,
    fnSelects_of_rowOf .toggle fun i => ?toggleRow, fun s _ =>
    ⟨fixedCommand_eq _ none s, fixedCommand_eq _ none s, fixedCommand_eq _ none s⟩⟩
  case powerRow => cases i <;> simp [rowOf]
  case autoRow => cases i <;> simp [rowOf]
  case toggleRow => cases i <;> simp [rowOf]

/-- Settles O30: the colours in range are the values of three bytes, which are the payload. -/
theorem setColorFrame : Obligations.SetColorFrame := by
  refine ⟨fnSelects_of_rowOf .setColor fun i => ?row, fun s => ⟨fun r g b => exec_cmdSetColor_of_bytes r g b s,
    fun n h0 hmax => ?threeBytes, fun n => valueCommand_of_not_mem _ s⟩⟩
  case row => cases i <;> simp [rowOf]
  case threeBytes =>
    obtain ⟨p, hp, rfl⟩ := exists_be_eq (w := 3) h0 (by omega)
    obtain ⟨r, g, b, rfl⟩ := List.length_eq_three.mp hp
    exact ⟨r, g, b, be_three r g b⟩

/-- Settles O31: both are commands of one byte. -/
theorem speedAndBrightnessFrames : Obligations.SpeedAndBrightnessFrames := by
  refine ⟨fnSelects_of_rowOf .setSpeed fun i => ?speedRow, fnSelects_of_rowOf .setBright fun i => ?brightRow,
    fun s n => ⟨fun h0 hmax => ⟨byteCommand_of_mem _ s h0 hmax, byteCommand_of_mem _ s h0 hmax⟩,
      fun h => ⟨valueCommand_of_not_mem _ s h, valueCommand_of_not_mem _ s h⟩⟩⟩
  case speedRow => cases i <;> simp [rowOf]
  case brightRow => cases i <;> simp [rowOf]

/-- Settles O32: a command of one byte, and an absent operand is the operand 80. -/
theorem setWhiteFrame : Obligations.SetWhiteFrame := by
  refine ⟨fnSelects_of_rowOf .setWhite fun i => ?row, fun s n => ⟨byteCommand_of_mem _ s,
    valueCommand_of_not_mem _ s, byteCommand_of_mem (n := 80) _ s (by decide) (by decide)⟩⟩
  case row => cases i <;> simp [rowOf]

/-- Settles O33: the counts in range are the values of two bytes, which are the payload, and an absent operand is the
operand 1 or 154. -/
theorem countFrames : Obligations.CountFrames := by
  refine ⟨fnSelects_of_rowOf .setSegs fun i => ?segsRow, fnSelects_of_rowOf .setLeds fun i => ?ledsRow,
    fun s => ⟨fun h l => ⟨countCommand_of_bytes h l _ s rfl, countCommand_of_bytes h l _ s rfl⟩,
      fun n h0 hmax => ?twoBytes,
      fun n h => ⟨valueCommand_of_not_mem _ s h, valueCommand_of_not_mem _ s h⟩,
      countCommand_of_bytes (n := defaultSegments) 0x00 0x01 _ s rfl,
      countCommand_of_bytes (n := defaultLeds) 0x00 0x9a _ s rfl⟩⟩
  case segsRow => cases i <;> simp [rowOf]
  case ledsRow => cases i <;> simp [rowOf]
  case twoBytes =>
    obtain ⟨p, hp, rfl⟩ := exists_be_eq (w := 2) h0 (by omega)
    obtain ⟨h, l, rfl⟩ := List.length_eq_two.mp hp
    exact ⟨h, l, be_two h l⟩

/-- Settles O34: the code is the payload byte as it stands, and CMD.SETMIXED of one more sends the same byte. -/
theorem setMonoFrame : Obligations.SetMonoFrame := by
  refine ⟨fnSelects_of_rowOf .setMono fun i => ?row, fun s code => ⟨exec_cmdSetMono_eq code s, exec_cmdSetMixed_succ s⟩⟩
  case row => cases i <;> simp [rowOf]

/-- Settles O35: an index in range is one more than the code of a byte up to 179, so it is CMD.SETMONO of that byte. -/
theorem setMixedFrame : Obligations.SetMixedFrame := by
  refine ⟨fnSelects_of_rowOf .setMixed fun i => ?row, fun s n => ⟨fun hmin hmax => ?inRange,
    valueCommand_of_not_mem _ s⟩⟩
  case row => cases i <;> simp [rowOf]
  case inRange =>
    have hcode : ((BitVec.ofInt 8 (n - 1)).toNat : Int) = n - 1 := toNat_ofInt_byte (by omega) (by omega)
    have hle : (BitVec.ofInt 8 (n - 1)).toNat ≤ 179 := by omega
    have hmono : exec (.cmdSetMixed n) s = exec (.cmdSetMono (BitVec.ofInt 8 (n - 1))) s := by
      rw [← exec_cmdSetMixed_succ s hle, hcode, Int.sub_add_cancel]
    exact ⟨hmono.trans (exec_cmdSetMono_eq _ s), hle, hmono⟩

end Sys2Proof
end

section
/-! The causes of `RangeError` and `MalformedResponseError` (60_exceptions.md R171 and R172). The operands of a request
alone decide which of the two it raises, if any: `operandError` lists the causes once, and every instruction ends as it
says. -/

namespace Sys2Proof

open Machine

/-! ### The listed causes (60_exceptions.md R171 and R172) -/

/-- The error of an operand that has to lie in `[lo, hi]`. -/
def domainError (lo hi n : Int) : Option Status := if lo ≤ n ∧ n ≤ hi then none else some .rangeError

/-- The error of a response that has to hold `least` bytes. -/
def lengthError (least : Nat) (raw : List Byte) : Option Status :=
  if raw.length < least then some .malformedResponse else none

/-- The error that the operands of a request cause in every state, if they cause one. An absent operand is never a
cause. -/
def operandError : Instr → Option Status
  | .encW v w => if 256 ^ w ≤ v then some .rangeError else none
  | .build _ p => if 3 < p.length then some .rangeError else none
  | .cmdSetColor n => domainError 0 16777215 n
  | .cmdSetSpeed n => domainError 0 255 n
  | .cmdSetBright n => domainError 0 255 n
  | .cmdSetWhite n => n.bind (domainError 0 255)
  | .cmdSetSegs n => n.bind (domainError 0 65535)
  | .cmdSetLeds n => n.bind (domainError 0 65535)
  | .cmdSetMixed n => domainError 1 180 n
  | .parse raw => lengthError 17 raw
  | .cmdGetRaw raw => raw.bind (lengthError 17)
  | .cmdGetSettings raw => raw.bind (lengthError 17)
  | .cmdGetName raw => raw.bind (lengthError 18)
  | .cmdIsReady raw => raw.bind (lengthError 1)
  | _ => none

@[simp] theorem domainError_eq_rangeError_iff {lo hi n : Int} :
    domainError lo hi n = some .rangeError ↔ ¬(lo ≤ n ∧ n ≤ hi) := by
  simp [domainError]

@[simp] theorem domainError_ne_malformedResponse {lo hi n : Int} :
    domainError lo hi n ≠ some .malformedResponse := by
  simp [domainError]

@[simp] theorem lengthError_eq_malformedResponse_iff {least : Nat} {raw : List Byte} :
    lengthError least raw = some .malformedResponse ↔ raw.length < least := by
  simp [lengthError]

@[simp] theorem lengthError_ne_rangeError {least : Nat} {raw : List Byte} :
    lengthError least raw ≠ some .rangeError := by
  simp [lengthError]

/-! ### How an operation ends -/

/-- `res` is how an operation ends from `s` whose operands cause the error `cause`. Without one it may still end with a
status that the tables decide. -/
inductive Ends (s : State) (res : Result) : Option Status → Prop where
  /-- It raised the error, and nothing was sent. -/
  | raises (e : Status) (t : State) (h : res = .next t) (hstatus : statusOf t = some e) (hwire : t.wire = s.wire) :
      Ends s res (some e)
  /-- It ended with another status than these two. -/
  | passes (e : Status) (t : State) (h : res = .next t) (hstatus : statusOf t = some e) (hrange : e ≠ .rangeError)
      (hshort : e ≠ .malformedResponse) : Ends s res none

section
variable {s t : State} {res : Result} {cause : Option Status}

theorem Ends.statusOf_eq_iff (h : Ends s (.next t) cause) {e : Status} (he : e = .rangeError ∨ e = .malformedResponse) :
    statusOf t = some e ↔ cause = some e := by
  cases h with
  | raises e' t' ht hstatus =>
    cases ht
    rw [hstatus]
  | passes e' t' ht hstatus hrange hshort =>
    cases ht
    rw [hstatus]
    obtain rfl | rfl := he
    · simp [hrange]
    · simp [hshort]

theorem Ends.wire_eq {e : Status} (h : Ends s (.next t) (some e)) : t.wire = s.wire := by
  cases h with
  | raises e t' ht hstatus hwire =>
    cases ht
    exact hwire

theorem Ends.of_ok (h : res = .next t) (hok : statusOf t = some .ok) : Ends s res none :=
  .passes .ok t h hok (by decide) (by decide)

theorem Ends.of_raised {raw : List Byte} {e : Status} {info : Option Int} (h : res = .next (raised s raw e info)) :
    Ends s res (some e) := .raises e _ h rfl rfl

/-- An operation that reads a response: what it does with too few bytes, and with enough. -/
theorem Ends.of_lengthError {least : Nat} {raw : List Byte}
    (hlt : raw.length < least → Ends s res (some .malformedResponse)) (hle : least ≤ raw.length → Ends s res none) :
    Ends s res (lengthError least raw) := by
  rw [lengthError]
  split
  next h => exact hlt h
  next h => exact hle (Nat.not_lt.mp h)

/-- A completion phase (43_commands.md R156). -/
theorem Ends.of_completion {least : Nat} {raw : List Byte} {r : Response}
    (hlt : raw.length < least → res = .next (cutShort s raw))
    (hle : least ≤ raw.length → res = .next (completed s raw r)) (hok : r.status = .ok) :
    Ends s res (lengthError least raw) :=
  .of_lengthError (fun h => .raises _ _ (hlt h) rfl rfl) fun h => .of_ok (hle h) (congrArg some hok)

end

/-! ### The shared operations -/

theorem Ends.of_fixedCommand (o : Byte) (q : Option Query) (s : State) : Ends s (fixedCommand o q s) none :=
  .of_ok (fixedCommand_eq o q s) rfl

/-- The range check of a value-carrying command is its only error. -/
theorem Ends.of_valueCommand {lo hi n bias : Int} {w : Nat} (o : Byte) (s : State) (hw : w ≤ 3)
    (hfit : ∀ m, lo ≤ m → m ≤ hi → (m - bias).toNat < 256 ^ w) :
    Ends s (valueCommand lo hi n bias w o s) (domainError lo hi n) := by
  rw [valueCommand_eq o s hw hfit, domainError]
  split
  · exact .of_ok rfl rfl
  · exact .of_raised rfl

/-- A value-carrying command whose values are the numbers of `w` bytes. -/
theorem Ends.of_valueCommand_zero {hi n : Int} {w : Nat} (o : Byte) (s : State) (hw : w ≤ 3) (hhi : hi < 256 ^ w) :
    Ends s (valueCommand 0 hi n 0 w o s) (domainError 0 hi n) := by
  refine .of_valueCommand o s hw fun m hlo hm => ?_
  have hm' : m < (256 ^ w : Nat) := by push_cast; omega
  omega

/-- The same for an optional operand (43_commands.md R160): its default is in range. -/
theorem Ends.of_valueCommand_orDefault {hi d : Int} {w : Nat} (n : Option Int) (o : Byte) (s : State) (hw : w ≤ 3)
    (hhi : hi < 256 ^ w) (hd : 0 ≤ d ∧ d ≤ hi) :
    Ends s (valueCommand 0 hi (orDefault n d) 0 w o s) (n.bind (domainError 0 hi)) := by
  cases n with
  | none =>
    have hdefault := Ends.of_valueCommand_zero (n := d) o s hw hhi
    rwa [domainError, if_pos hd] at hdefault
  | some n => exact .of_valueCommand_zero o s hw hhi

/-- A forward lookup fails by `NotFound` only, which the table decides and no operand range. -/
theorem Ends.of_nameToCode (t : EnumTable) (n : Name) (s : State) : Ends s (nameToCode t n s) none := by
  rw [nameToCode_eq]
  split
  · exact .of_ok rfl rfl
  · exact .passes .notFound _ rfl rfl (by decide) (by decide)

theorem Ends.of_codeToName (v : EnumVal) (w : Warn) (s : State) : Ends s (codeToName v w s) none :=
  .of_ok (codeToName_eq v w s) rfl

/-! ### The instructions -/

theorem Ends.of_encW (v w : Nat) (s : State) : Ends s (exec (.encW v w) s) (operandError (.encW v w)) := by
  rw [operandError]
  split
  next h => exact .of_raised (exec_encW_of_le s h)
  next h => exact .of_ok (exec_encW_of_lt s (Nat.not_le.mp h)) rfl

theorem Ends.of_build (o : Byte) (p : List Byte) (s : State) :
    Ends s (exec (.build o p) s) (operandError (.build o p)) := by
  rw [operandError]
  split
  next h => exact .of_raised (exec_build_of_lt o s h)
  next h => exact .of_ok (exec_build_of_le o s (Nat.not_lt.mp h)) rfl

/-- Every instruction ends as its operands alone decide, from every state. -/
theorem exec_ends (i : Instr) (s : State) : Ends s (exec i s) (operandError i) := by
  cases i with
  | encMin v => exact .of_ok rfl rfl
  | encW v w => exact .of_encW v w s
  | build o p => exact .of_build o p s
  | parse raw =>
    exact .of_lengthError (fun h => .of_raised (exec_parse_of_lt s h)) fun h => .of_ok (exec_parse_of_le s h) rfl
  | n2cAnim n => exact .of_nameToCode _ n s
  | n2cChip n => exact .of_nameToCode _ n s
  | n2cOrder n => exact .of_nameToCode _ n s
  | c2nAnim c => exact .of_codeToName _ _ s
  | c2nChip c => exact .of_codeToName _ _ s
  | c2nOrder c => exact .of_codeToName _ _ s
  | cmdIsReady raw =>
    cases raw with
    | none => exact .of_fixedCommand _ _ s
    | some raw => exact .of_completion (exec_cmdIsReady_of_lt s) (exec_cmdIsReady_of_le s) rfl
  | cmdSetPower on => exact .of_fixedCommand _ none s
  | cmdSetColor n => exact .of_valueCommand_zero _ s (by decide) (by decide)
  | cmdSetSpeed n => exact .of_valueCommand_zero _ s (by decide) (by decide)
  | cmdSetBright n => exact .of_valueCommand_zero _ s (by decide) (by decide)
  | cmdSetWhite n => exact .of_valueCommand_orDefault n _ s (by decide) (by decide) (by decide)
  | cmdSetSegs n => exact .of_valueCommand_orDefault n _ s (by decide) (by decide) (by decide)
  | cmdSetLeds n => exact .of_valueCommand_orDefault n _ s (by decide) (by decide) (by decide)
  | cmdSetMono c => exact .of_ok (emit_p1 _ c none s) rfl
  | cmdSetMixed n => exact .of_valueCommand _ s (by decide) (by simp only [mixedMin, mixedMax]; omega)
  | cmdAutoMode => exact .of_fixedCommand _ none s
  | cmdToggle => exact .of_fixedCommand _ none s
  | cmdGetName raw =>
    cases raw with
    | none => exact .of_fixedCommand _ _ s
    | some raw => exact .of_completion (exec_cmdGetName_of_lt s) (exec_cmdGetName_of_le s) rfl
  | cmdGetRaw raw =>
    cases raw with
    | none => exact .of_fixedCommand _ _ s
    | some raw => exact .of_completion (exec_cmdGetRaw_of_lt s) (exec_cmdGetRaw_of_le s) rfl
  | cmdGetSettings raw =>
    cases raw with
    | none => exact .of_fixedCommand _ _ s
    | some raw => exact .of_completion (exec_cmdGetSettings_of_lt s) (exec_cmdGetSettings_of_le s) rfl
  | fIsReady => exact .of_fixedCommand _ _ s
  | fToggle => exact .of_fixedCommand _ none s
  | fSetColor r g b => exact .of_ok (emit_p3 _ r g b none s) rfl
  | fSetSpeed v => exact .of_ok (emit_p1 _ v none s) rfl
  | fSetBright v => exact .of_ok (emit_p1 _ v none s) rfl
  | fSetWhite v => exact .of_ok (emit_p1 _ v none s) rfl
  | fSetSegs h l => exact .of_ok (emit_p2 _ h l none s) rfl
  | fSetLeds h l => exact .of_ok (emit_p2 _ h l none s) rfl
  | fSetAnim v => exact .of_ok (emit_p1 _ v none s) rfl
  | fAutoMode => exact .of_fixedCommand _ none s
  | fGetName => exact .of_fixedCommand _ _ s
  | fGetSettings => exact .of_fixedCommand _ _ s

/-! ### The obligations -/

/-- Settles O41: `RangeError` is the error the operands cause, for each instruction as its own entry of the list. -/
theorem rangeErrorCauses : Obligations.RangeErrorCauses := by
  intro i s t hexec
  have hends : Ends s (.next t) (operandError i) := hexec ▸ exec_ends i s
  have hcause : statusOf t = some .rangeError ↔ operandError i = some .rangeError := hends.statusOf_eq_iff (.inl rfl)
  refine ⟨fun hraised => (hcause.mp hraised ▸ hends).wire_eq, hcause.trans ?list⟩
  case list => cases i <;> simp [operandError, Option.bind_eq_some_iff]

/-- Settles O42: the same for `MalformedResponseError`; the list bounds lengths only, so no content causes it. -/
theorem malformedResponseCauses : Obligations.MalformedResponseCauses := by
  intro i s t hexec
  have hends : Ends s (.next t) (operandError i) := hexec ▸ exec_ends i s
  refine (hends.statusOf_eq_iff (.inr rfl)).trans ?list
  case list => cases i <;> simp [operandError, Option.bind_eq_some_iff]

end Sys2Proof
end

section
/-! Encode and decode (30_encoding.md R66 and R69): a request is read back from its bytes, what is read from a request
is an instruction its port presents, and bytes after its operands change nothing. The two facts about the readers are
proved once for the combinators they are made of (`Yields`, `ReadsPrefix`). -/

namespace Sys2Proof

open Machine Laws

/-! ### A request whose operands are read whole -/

theorem instrOf_eq_ok_iff {α : Type} {fn : Byte} {o : Operand α} {mk : α → Instr} {i : Instr} :
    instrOf fn o mk = .ok i ↔ ∃ x rest, o = .got x rest ∧ mk x = i := by
  cases o <;> simp [instrOf]

theorem Decoded.instr_eq_some_iff {d : Decoded} {i : Instr} : d.instr = some i ↔ d = .ok i := by
  cases d <;> simp [Decoded.instr]

theorem FrameReading.instr_eq_some_iff {r : FrameReading} {i : Instr} : r.instr = some i ↔ r = .ok i := by
  cases r <;> simp [FrameReading.instr]

theorem decodeRequest_fn_cons (p : Port) (o : Op) (operands : List Byte) :
    decodeRequest p (o.fn :: operands) = decodeOperands p o operands := by
  rw [decodeRequest, opOfFn_fn]

/-- A request is the instruction its operation makes of the operands read. -/
theorem readWord_requestOf {c : Config} {o : Op} {operands rest : List Byte} {α : Type} {r : Operand α} {mk : α → Instr}
    {x : α} (ho : decodeOperands c.port o operands = instrOf o.fn r mk) (hr : r = .got x rest) :
    readWord c (requestOf o operands) = some (mk x) := by
  rw [requestOf, readWord, decodeRequest_fn_cons, ho, hr, instrOf, Decoded.instr]

theorem readByte_singleton (b : Byte) : readByte [b] = .got b [] := rfl

theorem readValue_encodeVal {p : Port} {v : Nat} (h : valueFits p v = true) :
    readValue p (encodeVal p v) = .got v [] := by
  simpa using readValue_encode [] h

theorem readInt_encodeInt {p : Port} {v : Int} (h : intFits p v = true) : readInt p (encodeInt p v) = .got v [] := by
  simpa using readInt_encode [] h

theorem readSeq_encodeSeq {s : List Byte} {most : Nat} (h : s.length ≤ most) :
    readSeq most (encodeSeq most s) = .got s [] := by
  simpa using readSeq_encode [] h

theorem readEncW_encode {p : Port} {v w : Nat} (hv : valueFits p v = true) (hw : w ≤ p.encWidthMax) :
    readEncW p (encodeVal p v ++ encodeUpTo p.encWidthMax w) = .got (v, w) [] := by
  have hwidth : readUpTo p.encWidthMax (encodeUpTo p.encWidthMax w) = .got w [] := by simpa using readUpTo_encode [] hw
  rw [readEncW, readValue_encode _ hv, Operand.andThen, hwidth, Operand.andThen]

theorem readBuild_encode {p : Port} {payload : List Byte} (o : Byte) (h : payload.length ≤ p.payloadInMax) :
    readBuild p (o :: encodeSeq p.payloadInMax payload) = .got (o, payload) [] := by
  rw [readBuild, readByte, Operand.andThen, readSeq_encodeSeq h, Operand.andThen]

theorem readOpt_encodeOpt_int {p : Port} {n : Option Int} (h : optIntFits p n = true) :
    readOpt (readInt p) (encodeOpt (encodeInt p) n) = .got n [] := by
  have hread := readOpt_encode (readInt p) (encodeInt p) n [] fun x hx => readInt_encode [] (by rwa [hx] at h)
  simpa using hread

theorem readOpt_encodeOpt_raw {p : Port} {raw : Option (List Byte)} (h : optRawFits p raw = true) :
    readOpt (readSeq p.rawMax) (encodeOpt (encodeSeq p.rawMax) raw) = .got raw [] := by
  have hread := readOpt_encode (readSeq p.rawMax) (encodeSeq p.rawMax) raw [] fun x hx =>
    readSeq_encode [] (by rw [hx] at h; exact of_decide_eq_true h)
  simpa using hread

/-! ### A frame of a row -/

theorem readFrame_of_fits {m : OpcodeMap} (hm : m.distinct) (k : FrameKind) {a b c : Byte}
    (h : k.form.fits a b c = true) : readFrame m [head, a, b, c, k.opcode m, tail] = .ok (k.instr a b c) := by
  simp only [readFrame, kindOf_opcode hm, h, and_self, if_true]

theorem readWord_frameOf {c : Config} (hm : c.opcodes.distinct) (k : FrameKind) {p : List Byte} {x y z : Byte}
    (hp : pad3 p = [x, y, z]) (h : k.form.fits x y z = true) :
    readWord c (frameOf c.opcodes k p) = some (k.instr x y z) := by
  rw [frameOf, hp, readWord]
  exact FrameReading.instr_eq_some_iff.mpr (readFrame_of_fits hm k h)

/-- Settles O1: each operand reader reads back what the encoder wrote, and a frame belongs to the row whose opcode it
has. -/
theorem encodedInstructionsDecode : Obligations.EncodedInstructionsDecode := by
  intro c i hm hwf
  cases i with
  | encMin v => exact readWord_requestOf rfl (readValue_encodeVal hwf)
  | encW v w =>
    obtain ⟨hv, hw⟩ := (Bool.and_eq_true _ _).mp hwf
    exact readWord_requestOf (mk := fun x : Nat × Nat => .encW x.1 x.2) rfl (readEncW_encode hv (of_decide_eq_true hw))
  | build o p =>
    exact readWord_requestOf (mk := fun x : Byte × List Byte => .build x.1 x.2) rfl
      (readBuild_encode o (of_decide_eq_true hwf))
  | parse raw => exact readWord_requestOf rfl (readSeq_encodeSeq (of_decide_eq_true hwf))
  | n2cAnim n => exact readWord_requestOf rfl (readSeq_encodeSeq (of_decide_eq_true hwf))
  | n2cChip n => exact readWord_requestOf rfl (readSeq_encodeSeq (of_decide_eq_true hwf))
  | n2cOrder n => exact readWord_requestOf rfl (readSeq_encodeSeq (of_decide_eq_true hwf))
  | c2nAnim code => exact readWord_requestOf rfl (readByte_singleton code)
  | c2nChip code => exact readWord_requestOf rfl (readByte_singleton code)
  | c2nOrder code => exact readWord_requestOf rfl (readByte_singleton code)
  | cmdIsReady raw => exact readWord_requestOf rfl (readOpt_encodeOpt_raw hwf)
  | cmdSetPower on => cases on <;> rfl
  | cmdSetColor n => exact readWord_requestOf rfl (readInt_encodeInt hwf)
  | cmdSetSpeed n => exact readWord_requestOf rfl (readInt_encodeInt hwf)
  | cmdSetBright n => exact readWord_requestOf rfl (readInt_encodeInt hwf)
  | cmdSetWhite n => exact readWord_requestOf rfl (readOpt_encodeOpt_int hwf)
  | cmdSetSegs n => exact readWord_requestOf rfl (readOpt_encodeOpt_int hwf)
  | cmdSetLeds n => exact readWord_requestOf rfl (readOpt_encodeOpt_int hwf)
  | cmdSetMono code => exact readWord_requestOf rfl (readByte_singleton code)
  | cmdSetMixed n => exact readWord_requestOf rfl (readInt_encodeInt hwf)
  | cmdAutoMode => rfl
  | cmdToggle => rfl
  | cmdGetName raw => exact readWord_requestOf rfl (readOpt_encodeOpt_raw hwf)
  | cmdGetRaw raw => exact readWord_requestOf rfl (readOpt_encodeOpt_raw hwf)
  | cmdGetSettings raw => exact readWord_requestOf rfl (readOpt_encodeOpt_raw hwf)
  | fIsReady => exact readWord_frameOf hm .isReady pad3_nil rfl
  | fToggle => exact readWord_frameOf hm .toggle pad3_nil rfl
  | fSetColor r g b => exact readWord_frameOf hm .setColor (pad3_three r g b) rfl
  | fSetSpeed v => exact readWord_frameOf hm .setSpeed (pad3_one v) rfl
  | fSetBright v => exact readWord_frameOf hm .setBright (pad3_one v) rfl
  | fSetWhite v => exact readWord_frameOf hm .setWhite (pad3_one v) rfl
  | fSetSegs h l => exact readWord_frameOf hm .setSegs (pad3_two h l) rfl
  | fSetLeds h l => exact readWord_frameOf hm .setLeds (pad3_two h l) rfl
  | fSetAnim v => exact readWord_frameOf hm .setAnim (pad3_one v) rfl
  | fAutoMode => exact readWord_frameOf hm .autoMode pad3_nil rfl
  | fGetName => exact readWord_frameOf hm .getName pad3_nil rfl
  | fGetSettings => exact readWord_frameOf hm .getSettings pad3_nil rfl

/-! ### What the readers yield -/

theorem Operand.andThen_eq_got_iff {α β : Type} {o : Operand α} {f : α → List Byte → Operand β} {y : β}
    {rest : List Byte} :
    o.andThen f = .got y rest ↔ ∃ x mid, o = .got x mid ∧ f x mid = .got y rest := by
  cases o <;> simp [Operand.andThen]

theorem Operand.fitting_eq_got_iff {α : Type} {ok : α → Bool} {o : Operand α} {x : α} {rest : List Byte} :
    o.fitting ok = .got x rest ↔ o = .got x rest ∧ ok x = true := by
  cases o with
  | got y r =>
    rw [Operand.fitting]
    split
    next h => grind
    next h => grind
  | short => simp [Operand.fitting]
  | tooLarge => simp [Operand.fitting]

/-- Every operand that is read has the property `P`. -/
def Yields {α : Type} (read : List Byte → Operand α) (P : α → Prop) : Prop :=
  ∀ l x rest, read l = .got x rest → P x

theorem Yields.andThen {α β : Type} {read : List Byte → Operand α} {P : α → Prop} {f : α → List Byte → Operand β}
    {Q : β → Prop} (hread : Yields read P) (hf : ∀ x, P x → Yields (f x) Q) :
    Yields (fun l => (read l).andThen f) Q := by
  intro l y rest h
  obtain ⟨x, mid, hx, hy⟩ := Operand.andThen_eq_got_iff.mp h
  exact hf x (hread l x mid hx) mid y rest hy

theorem Yields.got {α β : Type} {P : β → Prop} {g : α → β} (x : α) (h : P (g x)) :
    Yields (fun l => .got (g x) l) P := by
  rintro _ _ _ ⟨⟩
  exact h

/-- A reader that refuses what does not fit yields only what fits (00_scope.md R8). -/
theorem Yields.fitting {α : Type} {read : List Byte → Operand α} (ok : α → Bool) :
    Yields (fun l => (read l).fitting ok) (ok · = true) :=
  fun _ _ _ h => (Operand.fitting_eq_got_iff.mp h).2

theorem yields_any {α : Type} (read : List Byte → Operand α) : Yields read fun _ => True :=
  fun _ _ _ _ => trivial

theorem yields_readValue (p : Port) : Yields (readValue p) (valueFits p · = true) := .fitting _

theorem yields_readUpTo (most : Nat) : Yields (readUpTo most) (· ≤ most) :=
  fun l x rest h => of_decide_eq_true (Yields.fitting _ l x rest h)

theorem yields_readN (n : Nat) : Yields (readN n) (List.length · = n) := by
  intro l s rest h
  rw [readN_eq] at h
  split at h
  next hn =>
    cases h
    exact List.length_take_of_le hn
  next => cases h

theorem yields_readSeq (most : Nat) : Yields (readSeq most) (List.length · ≤ most) :=
  (yields_readUpTo most).andThen fun n hn l s rest h => (yields_readN n l s rest h).trans_le hn

/-- A number of `INT_BITS` bits reads as a signed operand of that size (00_scope.md R8). -/
theorem intFits_sext {p : Port} {v : Nat} (h : v < 2 ^ p.intBits) : intFits p (sext p.intBits v) = true := by
  have hv : (v : Int) < 2 ^ p.intBits := by exact_mod_cast h
  simp only [intFits, Bool.and_eq_true, decide_eq_true_eq]
  rw [sext]
  split
  next hsmall =>
    have : 2 * (v : Int) < 2 ^ p.intBits := by exact_mod_cast hsmall
    omega
  next hlarge =>
    have : ¬2 * (v : Int) < 2 ^ p.intBits := by exact_mod_cast hlarge
    omega

theorem yields_readInt (p : Port) : Yields (readInt p) (intFits p · = true) :=
  (Yields.fitting _).andThen fun v hv => .got v (intFits_sext (of_decide_eq_true hv))

/-- An optional operand is absent, or is an operand the reader yields. -/
theorem yields_readOpt {α : Type} {read : List Byte → Operand α} {P : α → Prop} (h : Yields read P) :
    Yields (readOpt read) fun o => ∀ x, o = some x → P x := by
  refine (yields_any readByte).andThen fun flag _ l o rest ho => ?_
  split at ho
  next => cases ho; rintro _ ⟨⟩
  next =>
    obtain ⟨x, mid, hx, hgot⟩ := Operand.andThen_eq_got_iff.mp ho
    cases hgot
    rintro _ ⟨⟩
    exact h l x _ hx

theorem yields_readOpt_int (p : Port) : Yields (readOpt (readInt p)) (optIntFits p · = true) := by
  intro l o rest h
  cases o with
  | none => rfl
  | some n => exact yields_readOpt (yields_readInt p) l _ rest h n rfl

theorem yields_readOpt_raw (p : Port) : Yields (readOpt (readSeq p.rawMax)) (optRawFits p · = true) := by
  intro l o rest h
  cases o with
  | none => rfl
  | some raw => exact decide_eq_true (yields_readOpt (yields_readSeq p.rawMax) l _ rest h raw rfl)

theorem yields_readEncW (p : Port) :
    Yields (readEncW p) fun x => valueFits p x.1 = true ∧ x.2 ≤ p.encWidthMax :=
  (yields_readValue p).andThen fun v hv =>
    (yields_readUpTo p.encWidthMax).andThen fun w hw => .got (g := (v, ·)) w ⟨hv, hw⟩

theorem yields_readBuild (p : Port) : Yields (readBuild p) fun x => x.2.length ≤ p.payloadInMax :=
  (yields_any readByte).andThen fun o _ => (yields_readSeq p.payloadInMax).andThen fun s hs => .got (g := (o, ·)) s hs

/-- An instruction is well-formed where the operands it is made of are what the port can present. -/
theorem wellFormed_of_instrOf {α : Type} {p : Port} {fn : Byte} {read : List Byte → Operand α} {P : α → Prop}
    {l : List Byte} {mk : α → Instr} {i : Instr} (hread : Yields read P) (h : instrOf fn (read l) mk = .ok i)
    (hmk : ∀ x, P x → wellFormed p (mk x) = true) : wellFormed p i = true := by
  obtain ⟨x, rest, hx, rfl⟩ := instrOf_eq_ok_iff.mp h
  exact hmk x (hread l x rest hx)

theorem wellFormed_of_decodeOperands {p : Port} {o : Op} {l : List Byte} {i : Instr}
    (h : decodeOperands p o l = .ok i) : wellFormed p i = true := by
  cases o with
  | encMin => exact wellFormed_of_instrOf (yields_readValue p) h (fun _ hv => hv)
  | encW =>
    refine wellFormed_of_instrOf (yields_readEncW p) h ?_
    rintro x ⟨hv, hw⟩
    exact (Bool.and_eq_true _ _).mpr ⟨hv, decide_eq_true hw⟩
  | build => exact wellFormed_of_instrOf (yields_readBuild p) h (fun _ hs => decide_eq_true hs)
  | parse => exact wellFormed_of_instrOf (yields_readSeq p.rawMax) h (fun _ hs => decide_eq_true hs)
  | n2cAnim | n2cChip | n2cOrder =>
    exact wellFormed_of_instrOf (yields_readSeq p.nameOperandMax) h (fun _ hs => decide_eq_true hs)
  | c2nAnim | c2nChip | c2nOrder | setPower | setMono =>
    exact wellFormed_of_instrOf (yields_any readByte) h (fun _ _ => rfl)
  | setColor | setSpeed | setBright | setMixed => exact wellFormed_of_instrOf (yields_readInt p) h (fun _ hn => hn)
  | setWhite | setSegs | setLeds => exact wellFormed_of_instrOf (yields_readOpt_int p) h (fun _ hn => hn)
  | isReady | getName | getRaw | getSettings =>
    exact wellFormed_of_instrOf (yields_readOpt_raw p) h (fun _ hr => hr)
  | autoMode | toggle => cases h; rfl

theorem wellFormed_of_decodeRequest {p : Port} {bytes : List Byte} {i : Instr} (h : decodeRequest p bytes = .ok i) :
    wellFormed p i = true := by
  cases bytes with
  | nil => cases h
  | cons fn operands =>
    rw [decodeRequest] at h
    split at h
    next => cases h
    next => exact wellFormed_of_decodeOperands h

/-! ### Reading a frame (30_encoding.md R69 and R70) -/

theorem wellFormedFrame_iff {f : List Byte} :
    wellFormedFrame f = true ↔ ∃ a b c o, f = [head, a, b, c, o, tail] := by
  constructor
  · intro h
    simp only [wellFormedFrame, frameLen, Bool.and_eq_true, beq_iff_eq] at h
    obtain ⟨⟨hlen, hhead⟩, htail⟩ := h
    match f, hlen with
    | [x, a, b, c, o, y], _ =>
      obtain rfl : x = head := by simpa using hhead
      obtain rfl : y = tail := by simpa using htail
      exact ⟨a, b, c, o, rfl⟩
  · rintro ⟨a, b, c, o, rfl⟩
    rfl

theorem readFrame_eq_ok_iff {m : OpcodeMap} {f : List Byte} {i : Instr} :
    readFrame m f = .ok i ↔
      ∃ a b c o k, f = [head, a, b, c, o, tail] ∧ kindOf m a b c o = some k ∧ k.instr a b c = i := by
  constructor
  · intro h
    unfold readFrame at h
    split at h
    next x a b c o y =>
      split at h
      next hends =>
        obtain ⟨rfl, rfl⟩ := hends
        split at h
        next k hk =>
          cases h
          exact ⟨a, b, c, o, k, rfl, hk, rfl⟩
        next => cases h
      next => cases h
    next => cases h
  · rintro ⟨a, b, c, o, k, rfl, hk, rfl⟩
    simp only [readFrame, hk, and_self, if_true]

theorem readFrame_eq_notAFrame_iff {m : OpcodeMap} {f : List Byte} :
    readFrame m f = .notAFrame ↔ ¬∃ a b c o, f = [head, a, b, c, o, tail] := by
  unfold readFrame
  split
  next x a b c o y =>
    split
    next hends =>
      obtain ⟨rfl, rfl⟩ := hends
      have hframe : ∃ a' b' c' o', [head, a, b, c, o, tail] = [head, a', b', c', o', tail] := ⟨a, b, c, o, rfl⟩
      simp only [not_true, hframe, iff_false]
      split <;> exact nofun
    next hends => simpa using hends
  next hlen =>
    refine iff_of_true rfl ?_
    rintro ⟨a, b, c, o, rfl⟩
    exact hlen _ _ _ _ _ _ rfl

/-- The kind of a frame has its opcode, and the payload fits its form. -/
theorem opcode_and_fits_of_kindOf {m : OpcodeMap} {a b c o : Byte} {k : FrameKind} (h : kindOf m a b c o = some k) :
    k.opcode m = o ∧ k.form.fits a b c = true := by
  simpa [kindOf] using List.find?_some h

theorem kindOf_eq_some_iff {m : OpcodeMap} (hm : m.distinct) {a b c o : Byte} {k : FrameKind} :
    kindOf m a b c o = some k ↔ k.opcode m = o ∧ k.form.fits a b c = true := by
  refine ⟨opcode_and_fits_of_kindOf, ?_⟩
  rintro ⟨rfl, h⟩
  rw [kindOf_opcode hm, if_pos h]

theorem wellFormed_frameInstr (p : Port) (k : FrameKind) (a b c : Byte) : wellFormed p (k.instr a b c) = true := by
  cases k <;> rfl

/-- Settles O2: the readers refuse what the port cannot present, and every frame can be presented. -/
theorem decodedInstructionsAreWellFormed : Obligations.DecodedInstructionsAreWellFormed := by
  intro c w i h
  cases w with
  | request bytes => exact wellFormed_of_decodeRequest (Decoded.instr_eq_some_iff.mp h)
  | frame bytes =>
    obtain ⟨a, b, d, o, k, -, -, rfl⟩ := readFrame_eq_ok_iff.mp (FrameReading.instr_eq_some_iff.mp h)
    exact wellFormed_frameInstr c.port k a b d

/-! ### Bytes after the operands (10_state.md R30) -/

/-- The reader looks at no byte after its operand: more bytes at the end stay unread. -/
def ReadsPrefix {α : Type} (read : List Byte → Operand α) : Prop :=
  ∀ l extra x rest, read l = .got x rest → read (l ++ extra) = .got x (rest ++ extra)

theorem ReadsPrefix.andThen {α β : Type} {read : List Byte → Operand α} {f : α → List Byte → Operand β}
    (hread : ReadsPrefix read) (hf : ∀ x, ReadsPrefix (f x)) : ReadsPrefix fun l => (read l).andThen f := by
  intro l extra y rest h
  obtain ⟨x, mid, hx, hy⟩ := Operand.andThen_eq_got_iff.mp h
  exact Operand.andThen_eq_got_iff.mpr ⟨x, mid ++ extra, hread l extra x mid hx, hf x mid extra y rest hy⟩

theorem ReadsPrefix.got {α : Type} (x : α) : ReadsPrefix (Operand.got x) := by
  rintro l extra _ _ ⟨⟩
  rfl

theorem ReadsPrefix.fitting {α : Type} {read : List Byte → Operand α} (ok : α → Bool) (hread : ReadsPrefix read) :
    ReadsPrefix fun l => (read l).fitting ok := by
  intro l extra x rest h
  obtain ⟨hx, hok⟩ := Operand.fitting_eq_got_iff.mp h
  exact Operand.fitting_eq_got_iff.mpr ⟨hread l extra x rest hx, hok⟩

theorem readsPrefix_readByte : ReadsPrefix readByte := by
  intro l extra b rest h
  cases l with
  | nil => cases h
  | cons b' l => cases h; rfl

theorem readsPrefix_readN (n : Nat) : ReadsPrefix (readN n) := by
  intro l extra s rest h
  rw [readN_eq] at h
  split at h
  next hn =>
    cases h
    rw [readN_eq, if_pos (by rw [List.length_append]; omega), List.take_append_of_le_length hn,
      List.drop_append_of_le_length hn]
  next => cases h

theorem readsPrefix_readNat (n : Nat) : ReadsPrefix (readNat n) :=
  (readsPrefix_readN n).andThen fun s => .got (be s)

theorem readsPrefix_readValue (p : Port) : ReadsPrefix (readValue p) := (readsPrefix_readNat _).fitting _

theorem readsPrefix_readInt (p : Port) : ReadsPrefix (readInt p) :=
  ((readsPrefix_readNat _).fitting _).andThen fun v => .got (sext p.intBits v)

theorem readsPrefix_readUpTo (most : Nat) : ReadsPrefix (readUpTo most) := (readsPrefix_readNat _).fitting _

theorem readsPrefix_readSeq (most : Nat) : ReadsPrefix (readSeq most) :=
  (readsPrefix_readUpTo most).andThen readsPrefix_readN

theorem readsPrefix_readOpt {α : Type} {read : List Byte → Operand α} (hread : ReadsPrefix read) :
    ReadsPrefix (readOpt read) := by
  refine readsPrefix_readByte.andThen fun flag => ?_
  split
  next => exact .got none
  next => exact hread.andThen fun x => .got (some x)

theorem readsPrefix_readEncW (p : Port) : ReadsPrefix (readEncW p) :=
  (readsPrefix_readValue p).andThen fun v => (readsPrefix_readUpTo p.encWidthMax).andThen fun w => .got (v, w)

theorem readsPrefix_readBuild (p : Port) : ReadsPrefix (readBuild p) :=
  readsPrefix_readByte.andThen fun o => (readsPrefix_readSeq p.payloadInMax).andThen fun s => .got (o, s)

theorem instrOf_append {α : Type} {fn : Byte} {read : List Byte → Operand α} {l : List Byte} {mk : α → Instr}
    {i : Instr} (extra : List Byte) (hread : ReadsPrefix read) (h : instrOf fn (read l) mk = .ok i) :
    instrOf fn (read (l ++ extra)) mk = .ok i := by
  obtain ⟨x, rest, hx, hi⟩ := instrOf_eq_ok_iff.mp h
  exact instrOf_eq_ok_iff.mpr ⟨x, rest ++ extra, hread l extra x rest hx, hi⟩

theorem decodeOperands_append {p : Port} {o : Op} {l : List Byte} {i : Instr} (extra : List Byte)
    (h : decodeOperands p o l = .ok i) : decodeOperands p o (l ++ extra) = .ok i := by
  cases o with
  | encMin => exact instrOf_append extra (readsPrefix_readValue p) h
  | encW => exact instrOf_append extra (readsPrefix_readEncW p) h
  | build => exact instrOf_append extra (readsPrefix_readBuild p) h
  | parse => exact instrOf_append extra (readsPrefix_readSeq p.rawMax) h
  | n2cAnim | n2cChip | n2cOrder => exact instrOf_append extra (readsPrefix_readSeq p.nameOperandMax) h
  | c2nAnim | c2nChip | c2nOrder | setPower | setMono => exact instrOf_append extra readsPrefix_readByte h
  | setColor | setSpeed | setBright | setMixed => exact instrOf_append extra (readsPrefix_readInt p) h
  | setWhite | setSegs | setLeds => exact instrOf_append extra (readsPrefix_readOpt (readsPrefix_readInt p)) h
  | isReady | getName | getRaw | getSettings =>
    exact instrOf_append extra (readsPrefix_readOpt (readsPrefix_readSeq p.rawMax)) h
  | autoMode | toggle => exact h

/-- Settles O3: every operand reader looks at its operand only. -/
theorem extraRequestBytesAreIgnored : Obligations.ExtraRequestBytesAreIgnored := by
  intro p bytes extra i h
  cases bytes with
  | nil => cases h
  | cons fn operands =>
    rw [decodeRequest] at h
    rw [List.cons_append, decodeRequest]
    split at h
    next => cases h
    next o ho => exact decodeOperands_append extra h

/-! ### Match and mask (30_encoding.md R69) -/

/-- Masking two numbers masks their last bytes apart from the rest. -/
theorem and_mul_add_byte (v w : Nat) (x y : Byte) :
    (v * 256 + x.toNat) &&& (w * 256 + y.toNat) = (v &&& w) * 256 + (x &&& y).toNat := by
  have hpow : 256 = 2 ^ 8 := rfl
  apply Nat.eq_of_testBit_eq
  intro i
  rw [Nat.testBit_and, hpow, Nat.mul_comm v, Nat.mul_comm w, Nat.mul_comm (v &&& w),
    Nat.testBit_two_pow_mul_add _ x.isLt, Nat.testBit_two_pow_mul_add _ y.isLt,
    Nat.testBit_two_pow_mul_add _ (x &&& y).isLt]
  split
  next => rw [BitVec.toNat_and, Nat.testBit_and]
  next => rw [Nat.testBit_and]

/-- Masking the number of a byte sequence masks each byte by its own. -/
theorem be_and_be {s t : List Byte} (h : s.length = t.length) :
    be s &&& be t = be (List.zipWith (· &&& ·) s t) := by
  induction s using List.reverseRecOn generalizing t with
  | nil => simp
  | append_singleton s x ih =>
    obtain rfl | ⟨t, y, rfl⟩ := List.eq_nil_or_concat' t
    · simp at h
    · have hlen : s.length = t.length := by simpa using h
      rw [List.zipWith_append hlen, List.zipWith_cons_cons, List.zipWith_nil_left, be_append_singleton,
        be_append_singleton, be_append_singleton, and_mul_add_byte, ih hlen]

theorem be_inj {s t : List Byte} (hlen : s.length = t.length) : be s = be t ↔ s = t := by
  constructor
  · intro h
    rw [← bytesBE_be s, ← bytesBE_be t, h, hlen]
  · rintro rfl
    rfl

/-- The mask of a payload form, byte by byte. -/
def PayloadForm.payloadMask : PayloadForm → List Byte
  | .p0 => [0xff, 0xff, 0xff]
  | .p1 => [0xff, 0xff, 0]
  | .p2 => [0xff, 0, 0]
  | .p3 => [0, 0, 0]

theorem PayloadForm.mask_eq_be (f : PayloadForm) : f.mask = be (0xff :: f.payloadMask ++ [0xff, 0xff]) := by
  cases f <;> rfl

theorem FrameKind.matchNumber_eq_be (m : OpcodeMap) (k : FrameKind) :
    k.matchNumber m = be [head, 0, 0, 0, k.opcode m, tail] := by
  have hhead : head.toNat = 0x38 := rfl
  have htail : tail.toNat = 0x83 := rfl
  have hzero : (0 : Byte).toNat = 0 := rfl
  simp only [FrameKind.matchNumber, be, List.foldl_cons, List.foldl_nil, hhead, htail, hzero]
  omega

theorem and_ff (b : Byte) : b &&& 255#8 = b := BitVec.and_allOnes

/-- A payload fits its form when the masked bytes are zero (30_encoding.md R63). -/
theorem PayloadForm.fits_iff_masked {f : PayloadForm} {a b c x y z : Byte} (h : f.payloadMask = [x, y, z]) :
    f.fits a b c = true ↔ a &&& x = 0 ∧ b &&& y = 0 ∧ c &&& z = 0 := by
  cases f <;> cases h <;> simp [PayloadForm.fits, and_ff, and_assoc]

theorem PayloadForm.payloadMask_length (f : PayloadForm) : f.payloadMask.length = 3 := by
  cases f <;> rfl

/-- The row of a frame number, byte by byte. -/
theorem masked_eq_matchNumber_iff {m : OpcodeMap} {h a b c o t : Byte} {k : FrameKind} :
    be [h, a, b, c, o, t] &&& k.form.mask = k.matchNumber m ↔
      h = head ∧ k.form.fits a b c = true ∧ k.opcode m = o ∧ t = tail := by
  obtain ⟨x, y, z, hxyz⟩ := List.length_eq_three.mp k.form.payloadMask_length
  have hmasked : be [h, a, b, c, o, t] &&& k.form.mask = be [h, a &&& x, b &&& y, c &&& z, o, t] := by
    have hbytes := be_and_be (s := [h, a, b, c, o, t]) (t := 0xff :: [x, y, z] ++ [0xff, 0xff]) rfl
    rw [PayloadForm.mask_eq_be, hxyz, hbytes]
    simp [and_ff]
  have hlen : [h, a &&& x, b &&& y, c &&& z, o, t].length = [head, 0, 0, 0, k.opcode m, tail].length := rfl
  rw [hmasked, FrameKind.matchNumber_eq_be, be_inj hlen, PayloadForm.fits_iff_masked hxyz]
  simp only [List.cons.injEq, and_true, and_assoc, eq_comm (a := o)]

theorem FrameKind.instr_injective {k k' : FrameKind} {a b c a' b' c' : Byte}
    (h : k.instr a b c = k'.instr a' b' c') : k = k' := by
  have hrow (k : FrameKind) (a b c : Byte) : rowOf (k.instr a b c) = .inr k := by cases k <;> rfl
  simpa [hrow] using congrArg rowOf h

/-- Settles O4: both say that the bytes are HEAD, a payload that fits the form, the opcode of the kind and TAIL. -/
theorem frameKindsAreMatchAndMask : Obligations.FrameKindsAreMatchAndMask := by
  intro m h a b c o t k hm
  rw [masked_eq_matchNumber_iff, readFrame_eq_ok_iff]
  constructor
  · rintro ⟨rfl, hfits, hop, rfl⟩
    exact ⟨a, b, c, o, k, rfl, (kindOf_eq_some_iff hm).mpr ⟨hop, hfits⟩, rfl⟩
  · rintro ⟨a', b', c', o', k', hf, hk, hinstr⟩
    obtain rfl := FrameKind.instr_injective hinstr
    simp only [List.cons.injEq, and_true] at hf
    obtain ⟨rfl, rfl, rfl, rfl, rfl, rfl⟩ := hf
    obtain ⟨hop, hfits⟩ := (kindOf_eq_some_iff hm).mp hk
    exact ⟨rfl, hfits, hop, rfl⟩

/-- Settles O5: the predicate and the reading both ask for HEAD, four bytes and TAIL. -/
theorem illFormedFramesAreRejected : Obligations.IllFormedFramesAreRejected := by
  intro m f
  refine ⟨?notRead, ?ends⟩
  case notRead => rw [← Bool.not_eq_true, wellFormedFrame_iff, readFrame_eq_notAFrame_iff]
  case ends =>
    rw [wellFormedFrame_iff]
    constructor
    · rintro ⟨a, b, c, o, rfl⟩
      exact ⟨rfl, rfl, rfl⟩
    · rintro ⟨hlen, hhead, hlast⟩
      match f, hlen with
      | [x, a, b, c, o, y], _ =>
        obtain rfl : x = head := by simpa [head] using hhead
        obtain rfl : y = tail := by simpa [tail] using hlast
        exact ⟨a, b, c, o, rfl⟩

/-- Settles O6: each word is laid out as bytes and read. -/
theorem writtenWordsDecode : Obligations.WrittenWordsDecode := by
  refine ⟨?_, ?_, ?_, ?_, ?_, ?_, ?_⟩ <;> decide

end Sys2Proof
end

section
/-! The remaining laws of the Value Encoder, the Frame Codec and the Enumeration Tables: hexadecimal in both cases, the
maps of `FRAME` and `RAW`, what PARSE depends on, and the entries of the tables. -/

namespace Sys2Proof

open Machine Laws

/-! ### Hexadecimal digits in upper case (40_value_encoder.md R92) -/

theorem hexUc_cons (b : Byte) (s : List Byte) :
    hexUc (b :: s) = hexDigitUc (b.toNat / 16) :: hexDigitUc (b.toNat % 16) :: hexUc s := rfl

theorem hexValue_hexDigitUc {n : Nat} (h : n < 16) : hexValue (hexDigitUc n) = some n := by
  have hall : ∀ k : Fin 16, hexValue (hexDigitUc k) = some k.val := by decide
  exact hall ⟨n, h⟩

theorem unhex_hexUc (s : List Byte) : unhex (hexUc s) = some s := by
  induction s with
  | nil => rfl
  | cons b s ih =>
    have hb : b.toNat < 256 := b.isLt
    rw [hexUc_cons]
    exact unhex_cons_byte (hexValue_hexDigitUc (by omega)) (hexValue_hexDigitUc (by omega)) ih

/-- Settles O10: byte by byte, each digit reads back in either case. -/
theorem hexReadsBackInBothCases : Obligations.HexReadsBackInBothCases :=
  fun s => ⟨unhex_hexLc s, unhex_hexUc s⟩

/-! ### `FRAME` after BUILD (20_memory.md R48) and the inverse of BUILD (30_encoding.md R70) -/

/-- Padding does not change the value of a payload (30_encoding.md R62). -/
theorem be_pad3 (p : List Byte) : be (pad3 p) = be p := by
  rw [pad3, be_append, be_zeros, Nat.zero_mul, Nat.zero_add]

/-- A payload of at most three bytes is padded to three. -/
theorem exists_pad3_eq {p : List Byte} (h : p.length ≤ 3) : ∃ a b c, pad3 p = [a, b, c] :=
  List.length_eq_three.mp (pad3_length h)

/-- Settles O12: BUILD leaves its six bytes in `FRAME`, so every read is a read of them. -/
theorem frameBufferMap : Obligations.FrameBufferMap := by
  intro o p s t hp hexec
  obtain ⟨a, b, c, habc⟩ := exists_pad3_eq hp
  have hframe : t.frame = Memory.ofBytes [head, a, b, c, o, tail] := by
    rw [exec_build_of_le o s hp, habc] at hexec
    cases hexec
    rfl
  have hread : Memory.read t.frame 1 3 = some (be (pad3 p)) := by
    rw [hframe, Memory.read_ofBytes [head, a, b, c, o, tail] 1 3 (show 4 ≤ 6 by decide), habc]
    rfl
  refine ⟨?_, ?_, ?_, ?_, fun i hi => ?_⟩
  · rw [hframe, Memory.byteAt_ofBytes]
    rfl
  · rw [hread, be_pad3]
  · rw [hframe, Memory.byteAt_ofBytes]
    rfl
  · rw [hframe, Memory.byteAt_ofBytes]
    rfl
  · rw [hframe, Memory.byteAt_ofBytes]
    exact List.getElem?_eq_none hi

/-- Settles O13: the frame of BUILD is HEAD, three payload bytes, the opcode and TAIL, and so is every well-formed
frame. -/
theorem buildAndItsInverse : Obligations.BuildAndItsInverse := by
  intro s
  refine ⟨fun o p hp => ?inverse, fun f hf => ?build⟩
  case inverse =>
    obtain ⟨a, b, c, habc⟩ := exists_pad3_eq hp
    refine ⟨_, _, exec_build_of_le o s hp, rfl, ?_, ?_, ?_⟩
    · rw [habc]
      exact wellFormedFrame_iff.mpr ⟨a, b, c, o, rfl⟩
    · rw [habc]
      rfl
    · rw [habc]
      rfl
  case build =>
    obtain ⟨a, b, c, o, rfl⟩ := wellFormedFrame_iff.mp hf
    exact ⟨o, _, rfl, exec_build_of_le (payload := [a, b, c]) o s (show 3 ≤ 3 by decide), rfl⟩

/-! ### The fields of a status response (20_memory.md R49) -/

theorem toNat_append_byte (a b : Byte) : (a ++ b).toNat = be [a, b] := by
  have hfit : be [a, b] < 256 ^ 2 := be_lt [a, b]
  rw [← ofNat_two, BitVec.toNat_ofNat, Nat.mod_eq_of_lt (by omega)]

theorem append_byte_inj {a b c d : Byte} : a ++ b = c ++ d ↔ a = c ∧ b = d := by
  constructor
  · intro h
    have hbe : be [a, b] = be [c, d] := by rw [← toNat_append_byte, ← toNat_append_byte, h]
    simpa using (be_inj (s := [a, b]) (t := [c, d]) rfl).mp hbe
  · rintro ⟨rfl, rfl⟩
    rfl

theorem decodeEnum_inj {t : EnumTable} {c c' : Byte} : decodeEnum t c = decodeEnum t c' ↔ c = c' := by
  constructor
  · intro h
    rw [← decodeEnum_code t c, h, decodeEnum_code]
  · rintro rfl
    rfl

/-- The colour is one three-byte read, red first (20_memory.md R43). -/
theorem read_three (raw : List Byte) (off : Nat) (h : off + 2 < raw.length) :
    Memory.read (Memory.ofBytes raw) off 3 =
      some (be [raw.getD off 0, raw.getD (off + 1) 0, raw.getD (off + 2) 0]) := by
  have h0 : off < raw.length := by omega
  have h1 : off + 1 < raw.length := by omega
  rw [Memory.read_ofBytes raw off 3 (by omega), List.drop_eq_getElem_cons h0, List.drop_eq_getElem_cons h1,
    List.drop_eq_getElem_cons h, List.getD_eq_getElem raw 0 h0, List.getD_eq_getElem raw 0 h1,
    List.getD_eq_getElem raw 0 h]
  rfl

/-- Settles O15: each field is the byte, or the bytes, at its offset, which is what a read of `RAW` gives. -/
theorem parsedFieldsAreMemReads : Obligations.ParsedFieldsAreMemReads := by
  intro raw s t hlen hexec
  rw [exec_parse_of_le s hlen] at hexec
  cases hexec
  have hone (k : Nat) (hk : k < 17) := read_one raw k (by omega)
  have htwo (k : Nat) (hk : k < 16) := read_two raw k (by omega)
  rw [answered_raw]
  refine ⟨settingsFrom s.cfg.tables raw, rfl, ⟨_, hone 1 (by decide), ?power⟩, ?animation, hone 3 (by decide),
    hone 4 (by decide), ?order, ?leds, ?segments, ?color, ?chip, hone 14 (by decide), hone 15 (by decide)⟩
  case power =>
    rw [settingsFrom, ← toNat_bne_zero]
    exact bne_iff_ne
  case animation => rw [settingsFrom, decodeEnum_code, hone 2 (by decide)]
  case order => rw [settingsFrom, decodeEnum_code, hone 5 (by decide)]
  case leds => rw [settingsFrom, toNat_append_byte, htwo 6 (by decide)]
  case segments => rw [settingsFrom, toNat_append_byte, htwo 8 (by decide)]
  case color =>
    rw [read_three raw 10 (by omega)]
    simp only [settingsFrom, be, List.foldl_cons, List.foldl_nil, Option.some.injEq, Nat.reduceAdd]
    omega
  case chip => rw [settingsFrom, decodeEnum_code, hone 13 (by decide)]

/-! ### What PARSE depends on (20_memory.md R50) -/

/-- The offsets 2 to 15 that PARSE reads whole. -/
theorem forall_offset_iff {P : Nat → Prop} :
    (∀ i, 2 ≤ i → i ≤ 15 → P i) ↔
      P 2 ∧ P 3 ∧ P 4 ∧ P 5 ∧ P 6 ∧ P 7 ∧ P 8 ∧ P 9 ∧ P 10 ∧ P 11 ∧ P 12 ∧ P 13 ∧ P 14 ∧ P 15 := by
  constructor
  · intro h
    refine ⟨?_, ?_, ?_, ?_, ?_, ?_, ?_, ?_, ?_, ?_, ?_, ?_, ?_, ?_⟩ <;> exact h _ (by decide) (by decide)
  · rintro ⟨h2, h3, h4, h5, h6, h7, h8, h9, h10, h11, h12, h13, h14, h15⟩ i hlo hhi
    interval_cases i <;> assumption

theorem bne_zero_eq_iff {a b : Byte} : (a != 0) = (b != 0) ↔ (a = 0 ↔ b = 0) := by
  rw [Bool.eq_iff_iff, bne_iff_ne, bne_iff_ne, not_iff_not]

theorem settingsFrom_eq_iff {t : EnumTables} {raw raw' : List Byte} :
    settingsFrom t raw = settingsFrom t raw' ↔
      (raw.getD 1 0 = 0 ↔ raw'.getD 1 0 = 0) ∧ ∀ i, 2 ≤ i → i ≤ 15 → raw.getD i 0 = raw'.getD i 0 := by
  rw [forall_offset_iff]
  simp only [settingsFrom, Settings.mk.injEq, Rgb.mk.injEq, decodeEnum_inj, append_byte_inj, bne_zero_eq_iff, and_assoc]

/-- The warnings depend on offsets of the record only, so the record decides the response. -/
theorem parsedResponse_eq_iff {t : EnumTables} {raw raw' : List Byte} :
    parsedResponse t raw = parsedResponse t raw' ↔ settingsFrom t raw = settingsFrom t raw' := by
  constructor
  · intro h
    exact Option.some.inj (congrArg Response.settings h)
  · intro h
    rw [parsedResponse, parsedResponse, ← settingsWarn_settingsFrom, ← settingsWarn_settingsFrom, h]

/-- Settles O16: the response is the record and its warnings, and each field of the record tells its bytes apart. -/
theorem parseDependsOnNamedOffsetsOnly : Obligations.ParseDependsOnNamedOffsetsOnly := by
  intro raw raw' s t t' hlen hlen' hexec hexec'
  rw [exec_parse_of_le s hlen] at hexec
  rw [exec_parse_of_le s hlen'] at hexec'
  cases hexec
  cases hexec'
  rw [answered_resp, answered_resp, Option.some.injEq, parsedResponse_eq_iff, settingsFrom_eq_iff]

/-- Settles O28: CMD.GETRAW returns the first 17 bytes, and PARSE reads none after them. -/
theorem getSettingsIsGetRawThenParse : Obligations.GetSettingsIsGetRawThenParse := by
  intro s raw out t u v hraw hout hparse hsettings
  rcases Nat.lt_or_ge raw.length 17 with hlt | hle
  · rw [exec_cmdGetRaw_of_lt s hlt] at hraw
    cases hraw
    cases hout
  · rw [exec_cmdGetRaw_of_le s hle] at hraw
    cases hraw
    obtain rfl : raw.take 17 = out := Option.some.inj hout
    have htake : 17 ≤ (raw.take 17).length := by rw [List.length_take]; omega
    rw [exec_parse_of_le _ htake] at hparse
    rw [exec_cmdGetSettings_of_le s hle] at hsettings
    cases hparse
    cases hsettings
    have hsame (i : Nat) (hi : i < 17) : (raw.take 17).getD i 0 = raw.getD i 0 := by
      rw [List.getD_eq_getElem?_getD, List.getD_eq_getElem?_getD, List.getElem?_take_of_lt hi]
    rw [answered_resp, completed_resp, completed_cfg, Option.some.injEq, parsedResponse_eq_iff, settingsFrom_eq_iff,
      hsame 1 (by decide)]
    exact ⟨Iff.rfl, fun i _ hi => hsame i (by omega)⟩

/-! ### The entries of the tables (10_state.md R26 and R27) -/

/-- No entry of an admissible table has the empty name, or one that is too long (42_enum_tables.md R122). -/
theorem name_ne_of_unsymbolic {nameMax : Nat} {t : EnumTable} {n : Name} (h : EnumTable.admissible nameMax t)
    (hn : n = [] ∨ nameMax < n.length) : ∀ e ∈ t, e.name ≠ n := by
  rintro e he rfl
  obtain ⟨hne, hlen, -⟩ := h.2 e he
  rcases hn with hempty | hlong
  · exact hne hempty
  · omega

/-- Settles O18: such a name is in none of the three tables. -/
theorem unsymbolicNamesAreNotFound : Obligations.UnsymbolicNamesAreNotFound := by
  intro s n hs hn
  obtain ⟨hanim, hchip, horder, -⟩ := hs
  exact ⟨nameToCode_of_forall_ne s (name_ne_of_unsymbolic hanim hn),
    nameToCode_of_forall_ne s (name_ne_of_unsymbolic hchip hn),
    nameToCode_of_forall_ne s (name_ne_of_unsymbolic horder hn)⟩

/-- Settles O20: the search by code finds an entry's name, or nothing, and the code is kept. -/
theorem enumDecodingFallsBack : Obligations.EnumDecodingFallsBack :=
  fun t ht => ⟨fun _ => decodeEnum_of_mem ht, fun _ => decodeEnum_of_forall_ne, decodeEnum_code t⟩

/-- Settles O22: each entry is in its table by 10_state.md R27, so its search finds it. -/
theorem sourceEntriesAreFound : Obligations.SourceEntriesAreFound := by
  intro s hs
  obtain ⟨⟨hanim, -⟩, ⟨hchip, -⟩, ⟨horder, -⟩, hmeteor, hgrb, hws2811, hcode, e, he, hapa102⟩ := hs
  refine ⟨nameToCode_of_mem s hanim hmeteor, nameToCode_of_mem s horder hgrb, nameToCode_of_mem s hchip hws2811,
    codeToName_of_forall_ne warnAnim s hcode, e.code, ?_⟩
  rw [← hapa102]
  exact nameToCode_of_mem s hchip he

theorem defaultAnim_admissible : EnumTable.admissible 16 defaultAnim := by
  rw [defaultAnim_eq]
  decide

theorem defaultChip_admissible : EnumTable.admissible 16 defaultChip := by
  rw [defaultChip_eq]
  decide

theorem defaultOrder_admissible : EnumTable.admissible 16 defaultOrder := by
  rw [defaultOrder_eq]
  decide

theorem defaultTables_contentFacts : defaultConfig.tables.contentFacts := by
  unfold EnumTables.contentFacts EnumTables.sourceFacts
  simp only [defaultConfig]
  rw [defaultAnim_eq, defaultOrder_eq, defaultChip_eq, ascii_meteor, ascii_GRB, ascii_WS2811, ascii_APA102,
    colourOrders_eq]
  decide

theorem defaultConfig_admissible : defaultConfig.admissible :=
  ⟨by decide, defaultAnim_admissible, defaultChip_admissible, defaultOrder_admissible, defaultTables_contentFacts.1⟩

/-- Settles O23: the default tables are small, so each condition is evaluated on the names written as bytes. -/
theorem defaultConfigurationIsAdmissible : Obligations.DefaultConfigurationIsAdmissible := by
  refine ⟨defaultConfig_admissible, defaultTables_contentFacts, ?_⟩
  simp only [defaultConfig]
  rw [defaultAnim_eq]
  decide

end Sys2Proof
end

section
/-! The frames on the wire (30_encoding.md R69 and R74 (d), 70_reset_and_hazards.md R207 (a)): a value-carrying command
is ENC.W and then BUILD, and each frame row hands over its own six bytes, as the CMD operation that emits it does. -/

namespace Sys2Proof

open Machine Laws

/-! ### Value-carrying commands as ENC.W and BUILD (30_encoding.md R74 (d)) -/

/-- A value-carrying command sends what ENC.W gives of its value. -/
theorem valueCommand_of_encoded {lo hi n bias : Int} {v w : Nat} (o : Byte) (s : State) (hw : w ≤ 3) (hlo : lo ≤ n)
    (hhi : n ≤ hi) (hn : n = v + bias) (hv : v < 256 ^ w) :
    valueCommand lo hi n bias w o s = .next (handedOver s (head :: pad3 (bytesBE v w) ++ [o, tail]) none 0) := by
  have hcommand := valueCommand_of_mem (p := bytesBE v w) (bias := bias) o s (by rwa [bytesBE_length]) hlo hhi
    (by rw [be_bytesBE_of_lt hv, hn])
  rwa [bytesBE_length] at hcommand

/-- ENC.W of the value, then BUILD of its bytes: the frame of a value-carrying command that lets the value through. -/
theorem encW_then_build {s : State} {i : Instr} {lo hi n bias : Int} {v w : Nat} {o : Byte}
    (hexec : exec i s = valueCommand lo hi n bias w o s) (hw : w ≤ 3) (hn : n = v + bias)
    (hrange : v < 256 ^ w → lo ≤ n ∧ n ≤ hi) :
    ∃ t, exec (.encW v w) s = .next t ∧
      ∀ p, t.resp.bind Response.bytes = some p →
        ∃ u x f, exec (.build o p) t = .next u ∧ u.resp.bind Response.frame = some f ∧
          exec i s = .next x ∧ x.resp.bind Response.frame = some f := by
  rcases Nat.lt_or_ge v (256 ^ w) with hlt | hle
  · refine ⟨_, exec_encW_of_lt s hlt, fun p hp => ?_⟩
    obtain rfl : bytesBE v w = p := Option.some.inj hp
    obtain ⟨hlo, hhi⟩ := hrange hlt
    exact ⟨_, _, _, exec_build_of_le o _ (by rwa [bytesBE_length]), rfl,
      hexec.trans (valueCommand_of_encoded o s hw hlo hhi hn hlt), rfl⟩
  · exact ⟨_, exec_encW_of_le s hle, fun p hp => nomatch hp⟩

/-- Settles O36: the range check of each command lets every value of its width through, and CMD.SETMIXED's lets an index
of at most 180 through. -/
theorem valueCommandsAreEncWThenBuild : Obligations.ValueCommandsAreEncWThenBuild := by
  rintro s v i w o (h | h | h | h | h | h | ⟨h, hmax⟩) <;> cases h
  · exact encW_then_build rfl (by decide) (Int.add_zero _).symm fun hv => ⟨by omega, by simp only [rgbMax]; omega⟩
  · exact encW_then_build rfl (by decide) (Int.add_zero _).symm fun hv => ⟨by omega, by simp only [byteMax]; omega⟩
  · exact encW_then_build rfl (by decide) (Int.add_zero _).symm fun hv => ⟨by omega, by simp only [byteMax]; omega⟩
  · exact encW_then_build (n := v) rfl (by decide) (Int.add_zero _).symm fun hv =>
      ⟨by omega, by simp only [byteMax]; omega⟩
  · exact encW_then_build (n := v) rfl (by decide) (Int.add_zero _).symm fun hv =>
      ⟨by omega, by simp only [wordMax]; omega⟩
  · exact encW_then_build (n := v) rfl (by decide) (Int.add_zero _).symm fun hv =>
      ⟨by omega, by simp only [wordMax]; omega⟩
  · exact encW_then_build rfl (by decide) rfl fun _ =>
      ⟨by simp only [mixedMin]; omega, by simp only [mixedMax]; omega⟩

/-! ### The frame rows (30_encoding.md R69) -/

/-- The query a frame row begins: CMD.GETRAW's for the frame of the settings (43_commands.md R154). -/
def FrameKind.query : FrameKind → Option Query
  | .isReady => some .isReady
  | .getName => some .getName
  | .getSettings => some .getRaw
  | _ => none

/-- A frame row hands over its frame, for payload bytes that fit its form. -/
theorem exec_frameInstr {k : FrameKind} {a b c : Byte} (s : State) (h : k.form.fits a b c = true) :
    exec (k.instr a b c) s =
      .next (handedOver s (frameBytes a b c (k.opcode s.cfg.opcodes)) k.query (rspLenOf k.query)) := by
  cases k with
  | isReady | toggle | autoMode | getName | getSettings =>
    simp only [FrameKind.form, PayloadForm.fits, Bool.and_eq_true, beq_iff_eq] at h
    obtain ⟨⟨rfl, rfl⟩, rfl⟩ := h
    exact emit_p0 _ _ s
  | setSpeed | setBright | setWhite | setAnim =>
    simp only [FrameKind.form, PayloadForm.fits, Bool.and_eq_true, beq_iff_eq] at h
    obtain ⟨rfl, rfl⟩ := h
    exact emit_p1 _ c none s
  | setSegs | setLeds =>
    obtain rfl : a = 0 := by simpa [FrameKind.form, PayloadForm.fits] using h
    exact emit_p2 _ b c none s
  | setColor => exact emit_p3 _ a b c none s

/-- A command of one byte, by its byte. -/
theorem byteCommand_toNat (c o : Byte) (s : State) :
    valueCommand 0 byteMax c.toNat 0 1 o s = .next (handedOver s (frameBytes 0 0 c o) none 0) := by
  have hmax : (c.toNat : Int) ≤ byteMax := by
    have hc := c.isLt
    simp only [byteMax]
    omega
  exact valueCommand_of_mem (p := [c]) o s (show 1 ≤ 3 by decide) (by omega) hmax (by rw [be_singleton, Int.add_zero])

/-- Settles O37: each row is the emission of its frame, and so is the format phase of its command. -/
theorem framesAreHandedOver : Obligations.FramesAreHandedOver := by
  intro s a b c
  have row (k : FrameKind) {x y z : Byte} (h : k.form.fits x y z = true) := exec_frameInstr s h
  have byte (o : Byte) := (byteCommand_toNat c o s).symm
  have count (o : Byte) := (countCommand_of_bytes b c o s rfl).symm
  exact ⟨row .isReady rfl, row .toggle rfl, row .setColor rfl, row .setSpeed rfl, row .setBright rfl,
    row .setWhite rfl, row .setSegs rfl, row .setLeds rfl, row .setAnim rfl, row .autoMode rfl, row .getName rfl,
    row .getSettings rfl, rfl, rfl, (row .setColor rfl).trans (exec_cmdSetColor_of_bytes a b c s).symm,
    (row .setSpeed rfl).trans (byte _), (row .setBright rfl).trans (byte _), (row .setWhite rfl).trans (byte _),
    (row .setSegs rfl).trans (count _), (row .setLeds rfl).trans (count _), rfl, rfl, rfl, rfl⟩

/-- Settles O38: the bytes of a frame row have its opcode and fit its form, and these are the bytes it hands over. -/
theorem framesAreSentAsTheyAre : Obligations.FramesAreSentAsTheyAre := by
  intro s t f i hread hexec
  obtain ⟨a, b, c, o, k, rfl, hkind, rfl⟩ := readFrame_eq_ok_iff.mp hread
  obtain ⟨rfl, hfits⟩ := opcode_and_fits_of_kindOf hkind
  rw [exec_frameInstr s hfits] at hexec
  cases hexec
  exact ⟨_, _, rfl⟩

end Sys2Proof
end

section
/-! What every instruction keeps to (60_exceptions.md R170 to R182, 10_state.md R22 and R32, 70_reset_and_hazards.md
R214). Where the shape of the next state decides, the three shapes of `exec_shape` are the cases; what the response is
made of is said once for every instruction by `exec_alike`. -/

namespace Sys2Proof

open Machine

/-! ### From the shape of the next state -/

theorem shape_of_exec {i : Instr} {s t : State} (h : exec i s = .next t) : Shape s (.next t) := h ▸ exec_shape i s

/-- Settles O39: each of the three shapes is a next state with one response more. -/
theorem everyInstructionAnswers : Obligations.EveryInstructionAnswers := by
  intro i s
  cases exec_shape i s with
  | answers fr raw r h => exact ⟨_, h, r, rfl, rfl⟩
  | hands k a b c q hk h => exact ⟨_, h, _, rfl, rfl⟩
  | completes raw r h => exact ⟨_, h, r, rfl, rfl⟩

theorem warn_of_ok {r : Response} (h : r.status = .ok) : r.warn = some r.warnBits := if_pos h

theorem warn_of_error {r : Response} (h : r.status ≠ .ok) : r.warn = none := if_neg h

/-- An error leaves `FRAME` undriven, since `FRAME` holds a value only with a frame in the response. -/
theorem frame_eq_nil_of_error {fr : Memory} {r : Response} (hf : frameOk fr r) (h : r.status ≠ .ok) : fr = [] := by
  rcases hf with hnil | ⟨f, hok, -⟩
  · exact hnil
  · exact absurd hok h

/-- Settles O40: a hand-over is no error, and in the other two shapes an error carries `status` and `info` only. -/
theorem errorsHaveNoOtherEffect : Obligations.ErrorsHaveNoOtherEffect := by
  intro i s t r hexec hresp herr
  cases shape_of_exec hexec with
  | answers fr raw r' h hr hf =>
    cases h
    obtain rfl : r' = r := Option.some.inj hresp
    obtain ⟨⟨hbare, -⟩, -⟩ := hr
    exact ⟨hbare herr, warn_of_error herr, frame_eq_nil_of_error hf herr, rfl, rfl, rfl⟩
  | hands k a b c q hk h =>
    cases h
    obtain rfl := Option.some.inj hresp
    exact absurd rfl herr
  | completes raw r' h hr hf =>
    cases h
    obtain rfl : r' = r := Option.some.inj hresp
    obtain ⟨⟨hbare, -⟩, -⟩ := hr
    exact ⟨hbare herr, warn_of_error herr, rfl, rfl, rfl, rfl⟩

/-- Settles O44: only a hand-over gives an `rsp_len`, and it sends the frame of its own response. -/
theorem wireTraceFollowsResponses : Obligations.WireTraceFollowsResponses := by
  intro i s t r hexec hresp
  cases shape_of_exec hexec with
  | answers fr raw r' h hr =>
    cases h
    obtain rfl : r' = r := Option.some.inj hresp
    obtain ⟨-, hlen, -⟩ := hr
    exact ⟨fun _ => rfl, fun n hn => nomatch hlen.symm.trans hn⟩
  | hands k a b c q hk h =>
    cases h
    obtain rfl := Option.some.inj hresp
    refine ⟨nofun, ?_⟩
    rintro _ ⟨⟩
    exact ⟨_, _, rfl, rfl, rfl⟩
  | completes raw r' h hr =>
    cases h
    obtain rfl : r' = r := Option.some.inj hresp
    obtain ⟨-, hlen, -⟩ := hr
    exact ⟨fun _ => rfl, fun n hn => nomatch hlen.symm.trans hn⟩

/-! ### From the instruction and the constants alone (10_state.md R32) -/

/-- What an operation leaves to be seen. -/
structure Visible where
  frame : Memory
  raw : Memory
  resp : Response
  sent : List WireEntry

/-- The operation that gives `res` from `s` leaves `x`. -/
def Leaves (s : State) (res : Result) (x : Visible) : Prop :=
  ∃ t, res = .next t ∧ t.frame = x.frame ∧ t.raw = x.raw ∧ t.resp = some x.resp ∧ t.wire = s.wire ++ x.sent

/-- The instructions that decode an enumeration code (10_state.md R22). -/
def DecodesCode (i : Instr) : Prop :=
  (∃ raw, i = .parse raw) ∨ (∃ raw, i = .cmdGetSettings (some raw)) ∨
    ∃ c, i = .c2nAnim c ∨ i = .c2nChip c ∨ i = .c2nOrder c

/-- From every state with the constants `c` the operation leaves the same, with a warning only where `mayWarn`. -/
def Alike (c : Config) (mayWarn : Prop) (run : State → Result) : Prop :=
  ∃ x : Visible, (x.resp.warnBits ≠ warn000 → mayWarn) ∧ ∀ s, s.cfg = c → Leaves s (run s) x

section
variable {c : Config} {mayWarn : Prop} {run : State → Result}

theorem Alike.of_answered {fr : Memory} {raw : List Byte} {r : Response} (hr : r.warnBits ≠ warn000 → mayWarn)
    (h : ∀ s, s.cfg = c → run s = .next (answered s fr raw r)) : Alike c mayWarn run :=
  ⟨⟨fr, Memory.ofBytes raw, r, []⟩, hr, fun s hs => ⟨_, h s hs, rfl, rfl, rfl, (List.append_nil _).symm⟩⟩

theorem Alike.of_raised {raw : List Byte} {e : Status} {info : Option Int}
    (h : ∀ s, run s = .next (raised s raw e info)) : Alike c mayWarn run :=
  .of_answered (absurd rfl) fun s _ => h s

theorem Alike.of_completed {raw : List Byte} {r : Response} (hr : r.warnBits ≠ warn000 → mayWarn)
    (h : ∀ s, s.cfg = c → run s = .next (completed s raw r)) : Alike c mayWarn run :=
  ⟨⟨[], Memory.ofBytes raw, r, []⟩, hr, fun s hs => ⟨_, h s hs, rfl, rfl, rfl, (List.append_nil _).symm⟩⟩

theorem Alike.of_handedOver {f : List Byte} {q : Option Query} {n : Nat}
    (h : ∀ s, s.cfg = c → run s = .next (handedOver s f q n)) : Alike c mayWarn run :=
  ⟨⟨Memory.ofBytes f, Memory.ofBytes [],
    { status := .ok, warnBits := warn000, frame := some f, expect := some q.isSome, rspLen := some n },
    [⟨f, q.isSome, n⟩]⟩, absurd rfl, fun s hs => ⟨_, h s hs, rfl, rfl, rfl, rfl⟩⟩

/-- An operation that reads a response: what it does with too few bytes, and with enough. -/
theorem Alike.of_completion {least : Nat} {raw : List Byte} {r : Response} (hr : r.warnBits ≠ warn000 → mayWarn)
    (hlt : ∀ s, raw.length < least → run s = .next (cutShort s raw))
    (hle : ∀ s, s.cfg = c → least ≤ raw.length → run s = .next (completed s raw r)) : Alike c mayWarn run := by
  rcases Nat.lt_or_ge raw.length least with h | h
  · exact .of_completed (absurd rfl) fun s _ => hlt s h
  · exact .of_completed hr fun s hs => hle s hs h

end

/-! The shared operations, whose opcode or table is one of the constants. -/

section
variable (c : Config) {mayWarn : Prop}

theorem Alike.of_emit (o : Config → Byte) (p : List Byte) (q : Option Query) (hp : p.length ≤ 3) :
    Alike c mayWarn fun s => emit (o s.cfg) p q (s.start []) :=
  .of_handedOver (f := head :: pad3 p ++ [o c, tail]) (q := q) (n := rspLenOf q) fun s hs => hs ▸ emit_start q s hp

/-- The emission of a frame of form P0 (30_encoding.md R63). -/
theorem Alike.of_fixed (o : Config → Byte) (q : Option Query) :
    Alike c mayWarn fun s => emit (o s.cfg) [] q (s.start []) := .of_emit c o [] q (Nat.zero_le 3)

/-- The emission of a frame of form P1 (30_encoding.md R63). -/
theorem Alike.of_byte (o : Config → Byte) (v : Byte) :
    Alike c mayWarn fun s => emit (o s.cfg) [v] none (s.start []) := .of_emit c o [v] none (show 1 ≤ 3 by decide)

theorem Alike.of_valueCommand (o : Config → Byte) {lo hi n bias : Int} {w : Nat} (hw : w ≤ 3)
    (hfit : ∀ m, lo ≤ m → m ≤ hi → (m - bias).toNat < 256 ^ w) :
    Alike c mayWarn fun s => valueCommand lo hi n bias w (o s.cfg) s := by
  by_cases hn : lo ≤ n ∧ n ≤ hi
  · refine .of_handedOver (f := head :: pad3 (bytesBE (n - bias).toNat w) ++ [o c, tail]) (q := none) (n := 0) ?_
    rintro s rfl
    rw [valueCommand_eq _ s hw hfit, if_pos hn]
  · exact .of_raised fun s => by rw [valueCommand_eq _ s hw hfit, if_neg hn]

theorem Alike.of_nameToCode (table : Config → EnumTable) (n : Name) :
    Alike c mayWarn fun s => nameToCode (table s.cfg) n s := by
  cases hl : lookupFwd (table c) n with
  | none =>
    refine .of_answered (fr := []) (raw := []) (r := { status := .notFound, warnBits := warn000 }) (absurd rfl) ?_
    rintro s rfl
    rw [nameToCode_eq, hl]
    rfl
  | some code =>
    refine .of_answered (fr := []) (raw := []) (r := { status := .ok, warnBits := warn000, code := some code })
      (absurd rfl) ?_
    rintro s rfl
    rw [nameToCode_eq, hl]

theorem Alike.of_codeToName (v : Config → EnumVal) (warnOf : EnumVal → Warn) (h : mayWarn) :
    Alike c mayWarn fun s => codeToName (v s.cfg) (warnOf (v s.cfg)) s :=
  .of_answered (fr := []) (raw := [])
    (r := { status := .ok, warnBits := warnOf (v c), code := some (v c).code, known := some (v c).isKnown,
            name := (v c).name })
    (fun _ => h) fun s hs => hs ▸ codeToName_eq (v s.cfg) (warnOf (v s.cfg)) s

end

/-- What an instruction leaves is decided by the instruction and the constants, and only those that decode a code can
warn. -/
theorem exec_alike (i : Instr) (c : Config) : Alike c (DecodesCode i) (exec i) := by
  cases i with
  | encMin v => exact .of_answered (absurd rfl) fun _ _ => rfl
  | encW v w =>
    rcases Nat.lt_or_ge v (256 ^ w) with h | h
    · exact .of_answered (absurd rfl) fun s _ => exec_encW_of_lt s h
    · exact .of_raised fun s => exec_encW_of_le s h
  | build o p =>
    rcases Nat.lt_or_ge 3 p.length with h | h
    · exact .of_raised fun s => exec_build_of_lt o s h
    · exact .of_answered (absurd rfl) fun s _ => exec_build_of_le o s h
  | parse raw =>
    rcases Nat.lt_or_ge raw.length 17 with h | h
    · exact .of_raised fun s => exec_parse_of_lt s h
    · exact .of_answered (r := parsedResponse c.tables raw) (fun _ => .inl ⟨raw, rfl⟩) fun s hs =>
        hs ▸ exec_parse_of_le s h
  | n2cAnim n => exact .of_nameToCode c (·.tables.anim) n
  | n2cChip n => exact .of_nameToCode c (·.tables.chip) n
  | n2cOrder n => exact .of_nameToCode c (·.tables.order) n
  | c2nAnim code =>
    exact .of_codeToName c (decodeEnum ·.tables.anim code) warnAnim (.inr (.inr ⟨code, .inl rfl⟩))
  | c2nChip code =>
    exact .of_codeToName c (decodeEnum ·.tables.chip code) warnChip (.inr (.inr ⟨code, .inr (.inl rfl)⟩))
  | c2nOrder code =>
    exact .of_codeToName c (decodeEnum ·.tables.order code) warnOrder (.inr (.inr ⟨code, .inr (.inr rfl)⟩))
  | cmdIsReady raw =>
    cases raw with
    | none => exact .of_fixed c (·.opcodes.isReady) (some .isReady)
    | some raw => exact .of_completion (absurd rfl) exec_cmdIsReady_of_lt fun s _ => exec_cmdIsReady_of_le s
  | cmdSetPower on => exact .of_fixed c (·.opcodes.toggle) none
  | cmdSetColor n => exact .of_valueCommand c (·.opcodes.setColor) (by decide) (by simp only [rgbMax]; omega)
  | cmdSetSpeed n => exact .of_valueCommand c (·.opcodes.setSpeed) (by decide) (by simp only [byteMax]; omega)
  | cmdSetBright n => exact .of_valueCommand c (·.opcodes.setBrightness) (by decide) (by simp only [byteMax]; omega)
  | cmdSetWhite n => exact .of_valueCommand c (·.opcodes.setWhite) (by decide) (by simp only [byteMax]; omega)
  | cmdSetSegs n => exact .of_valueCommand c (·.opcodes.setSegments) (by decide) (by simp only [wordMax]; omega)
  | cmdSetLeds n => exact .of_valueCommand c (·.opcodes.setLeds) (by decide) (by simp only [wordMax]; omega)
  | cmdSetMono code => exact .of_byte c (·.opcodes.setAnimation) code
  | cmdSetMixed n =>
    exact .of_valueCommand c (·.opcodes.setAnimation) (by decide) (by simp only [mixedMin, mixedMax]; omega)
  | cmdAutoMode => exact .of_fixed c (·.opcodes.autoMode) none
  | cmdToggle => exact .of_fixed c (·.opcodes.toggle) none
  | cmdGetName raw =>
    cases raw with
    | none => exact .of_fixed c (·.opcodes.getName) (some .getName)
    | some raw => exact .of_completion (absurd rfl) exec_cmdGetName_of_lt fun s _ => exec_cmdGetName_of_le s
  | cmdGetRaw raw =>
    cases raw with
    | none => exact .of_fixed c (·.opcodes.getSettings) (some .getRaw)
    | some raw => exact .of_completion (absurd rfl) exec_cmdGetRaw_of_lt fun s _ => exec_cmdGetRaw_of_le s
  | cmdGetSettings raw =>
    cases raw with
    | none => exact .of_fixed c (·.opcodes.getSettings) (some .getSettings)
    | some raw =>
      exact .of_completion (r := parsedResponse c.tables raw) (fun _ => .inr (.inl ⟨raw, rfl⟩))
        exec_cmdGetSettings_of_lt fun s hs => hs ▸ exec_cmdGetSettings_of_le s
  | fIsReady => exact .of_fixed c (·.opcodes.isReady) (some .isReady)
  | fToggle => exact .of_fixed c (·.opcodes.toggle) none
  | fSetColor r g b => exact .of_emit c (·.opcodes.setColor) [r, g, b] none (show 3 ≤ 3 by decide)
  | fSetSpeed v => exact .of_byte c (·.opcodes.setSpeed) v
  | fSetBright v => exact .of_byte c (·.opcodes.setBrightness) v
  | fSetWhite v => exact .of_byte c (·.opcodes.setWhite) v
  | fSetSegs h l => exact .of_emit c (·.opcodes.setSegments) [h, l] none (show 2 ≤ 3 by decide)
  | fSetLeds h l => exact .of_emit c (·.opcodes.setLeds) [h, l] none (show 2 ≤ 3 by decide)
  | fSetAnim v => exact .of_byte c (·.opcodes.setAnimation) v
  | fAutoMode => exact .of_fixed c (·.opcodes.autoMode) none
  | fGetName => exact .of_fixed c (·.opcodes.getName) (some .getName)
  | fGetSettings => exact .of_fixed c (·.opcodes.getSettings) (some .getRaw)

/-- Settles O43: only an instruction that decodes a code can warn, and an error carries no warning bit. -/
theorem warningsComeFromDecodingOnly : Obligations.WarningsComeFromDecodingOnly := by
  intro i s t r hexec hresp hwarn
  have hok : r.status = .ok := by
    by_contra herr
    have hbare := (errorsHaveNoOtherEffect i s t r hexec hresp herr).1
    exact hwarn (congrArg Response.warnBits hbare)
  obtain ⟨x, hdecodes, hleaves⟩ := exec_alike i s.cfg
  obtain ⟨t', ht', -, -, hresp', -⟩ := hleaves s rfl
  obtain rfl : t = t' := by simpa [hexec] using ht'
  obtain rfl : r = x.resp := Option.some.inj (hresp.symm.trans hresp')
  exact ⟨hok, warn_of_ok hok, hdecodes hwarn⟩

/-- Settles O45: the two states have the same constants, so the instruction leaves the same. -/
theorem responsesDependOnRequestOnly : Obligations.ResponsesDependOnRequestOnly := by
  intro i s s' t t' hcfg hexec hexec'
  obtain ⟨x, -, hleaves⟩ := exec_alike i s'.cfg
  obtain ⟨u, hu, hframe, hraw, hresp, hwire⟩ := hleaves s hcfg
  obtain ⟨u', hu', hframe', hraw', hresp', hwire'⟩ := hleaves s' rfl
  obtain rfl : t = u := by simpa [hexec] using hu
  obtain rfl : t' = u' := by simpa [hexec'] using hu'
  exact ⟨hresp.trans hresp'.symm, hframe.trans hframe'.symm, hraw.trans hraw'.symm, x.sent, hwire, hwire'⟩

end Sys2Proof
end

section
/-! The steps (20_memory.md R52 and R58, 43_commands.md R140, 70_reset_and_hazards.md R200 to R207): which event is
taken, and what taking it does. -/

namespace Sys2Proof

open Machine

/-! ### What an instruction changes -/

/-- The fields outside an instruction's answer: the constants and the line stay, and the query in progress stays, ends,
or is the one whose frame the instruction has just put on the wire trace. -/
theorem exec_frame {i : Instr} {s t : State} (h : exec i s = .next t) :
    t.cfg = s.cfg ∧ t.inbox = s.inbox ∧ (∀ p, t.query = some p → s.query = some p ∨ p.call = s.wire.length) := by
  cases shape_of_exec h with
  | answers fr raw r h =>
    cases h
    exact ⟨rfl, rfl, fun p hp => .inl hp⟩
  | hands k a b c q hk h =>
    cases h
    refine ⟨rfl, rfl, fun p hp => .inr ?_⟩
    obtain ⟨q', -, rfl⟩ := Option.map_eq_some_iff.mp hp
    rfl
  | completes raw r h =>
    cases h
    exact ⟨rfl, rfl, nofun⟩

/-- An instruction adds one response, and at most one frame. -/
theorem exec_appends {i : Instr} {s t : State} (h : exec i s = .next t) :
    (∃ r, t.responses = s.responses ++ [r]) ∧ (t.wire = s.wire ∨ ∃ w, t.wire = s.wire ++ [w]) := by
  cases shape_of_exec h with
  | answers fr raw r h =>
    cases h
    exact ⟨⟨r, rfl⟩, .inl rfl⟩
  | hands k a b c q hk h =>
    cases h
    exact ⟨⟨_, rfl⟩, .inr ⟨_, rfl⟩⟩
  | completes raw r h =>
    cases h
    exact ⟨⟨r, rfl⟩, .inl rfl⟩

/-! ### Requests with no query in progress (20_memory.md R52) -/

/-- A request for an instruction, first in line with no query in progress, runs it. -/
theorem step_of_asks {s : State} {e : Event} {rest : List Event} {i : Instr} (hq : s.query = none)
    (hi : s.inbox = e :: rest) (he : e.asks s.cfg = some i) : step s = exec i { s with inbox := rest } := by
  rw [step_of_nextEvent (nextEvent_idle hq hi)]
  exact handle_asks he

/-- Settles O46: both events ask for the instruction. -/
theorem stepRunsTheDecodedInstruction : Obligations.StepRunsTheDecodedInstruction := by
  intro s rest i hq
  refine ⟨fun bytes hi hdecode => step_of_asks hq hi ?_, fun hi => step_of_asks hq hi rfl⟩
  exact Decoded.instr_eq_some_iff.mpr hdecode

theorem step_withFetchWord {s : State} {nbits w : Nat} {i : Instr}
    (h : readWord s.cfg (tableCode s.cfg.port nbits w) = some i) :
    step (s.withFetchWord nbits w) = exec i { s with query := none } :=
  step_of_asks (s := s.withFetchWord nbits w) rfl rfl (wordEvent_asks h)

/-- The instruction of a word depends on the port and the opcodes only. -/
theorem readWord_congr {c c' : Config} (hport : c.port = c'.port) (hopcodes : c.opcodes = c'.opcodes) (w : Code) :
    readWord c w = readWord c' w := by
  cases w with
  | request bytes => rw [readWord, readWord, hport]
  | frame bytes => rw [readWord, readWord, hopcodes]

/-- Settles O47: the placed word is first in line, as the event that asks for its instruction. -/
theorem placedTableWordRuns : Obligations.PlacedTableWordRuns := by
  intro s nbits w i
  refine ⟨step_withFetchWord, fun hport hopcodes h => step_withFetchWord ?_⟩
  rw [readWord_congr (c' := defaultConfig) hport hopcodes, hport]
  exact h

/-- A `fn` byte outside the table of 30_encoding.md R66 selects no operation. -/
theorem opOfFn_eq_none {fn : Byte} (h : fn.toNat ∉ allOps.map fun o => o.fn.toNat) : opOfFn fn = none := by
  rw [opOfFn, List.find?_eq_none]
  intro o ho hfn
  exact h (List.mem_map.mpr ⟨o, ho, by rw [eq_of_beq hfn]⟩)

theorem step_of_illegal {s : State} {rest : List Event} {fn : Byte} {operands : List Byte} (hq : s.query = none)
    (hi : s.inbox = .request (fn :: operands) :: rest) (hfn : opOfFn fn = none) :
    step s = .next (raised { s with inbox := rest } [] .illegalFunction (some fn.toNat)) := by
  rw [step_of_nextEvent (nextEvent_idle hq hi), handle, decodeRequest, hfn]
  rfl

/-- Settles O48: no operation has a `fn` outside the table, and HEAD is outside it. -/
theorem illegalFunctionIsRaised : Obligations.IllegalFunctionIsRaised := by
  intro s rest hq
  refine ⟨fun fn operands hi hfn => step_of_illegal hq hi (opOfFn_eq_none hfn), fun f hf hi => ?_⟩
  obtain ⟨a, b, c, o, rfl⟩ := wellFormedFrame_iff.mp hf
  exact step_of_illegal hq hi (opOfFn_eq_none (by decide))

/-! ### While a query is in progress (20_memory.md R58) -/

/-- Settles O49: no event in line may be taken. -/
theorem noRequestIsTakenDuringAQuery : Obligations.NoRequestIsTakenDuringAQuery := by
  intro s p hq hwait
  have hnone : firstReady (answersQuery s.cfg p.query) s.inbox = none := firstReady_none _ fun e he =>
    answersQuery_host_false (hwait e he).1 (hwait e he).2
  refine step_of_idle ?_
  rw [nextEvent, hq]
  simp only [hnone]

/-- Settles O50: the answer is the first event that may be taken, and it is the answer to the query's own frame. -/
theorem transportBytesCompleteTheQuery : Obligations.TransportBytesCompleteTheQuery := by
  intro s p before after raw hq hi hwait
  have hnext := nextEvent_query hq hi (fun e he => answersQuery_host_false (hwait e he).1 (hwait e he).2)
    (answersQuery_outside rfl)
  rw [if_neg nofun] at hnext
  rw [step_of_nextEvent hnext]
  exact handle_rsp_awaited raw hq

/-! ### What comes from outside the host -/

/-- What comes from the transport, or is a reset, is taken when it is first in line. -/
theorem step_of_outside {s : State} {e : Event} {rest : List Event} (hi : s.inbox = e :: rest)
    (he : e.fromHost = false) : step s = handle e { s with inbox := rest } :=
  step_of_nextEvent (nextEvent_outside hi he)

/-- An answer to another frame than the awaited one is dropped (70_reset_and_hazards.md R207 (d)). -/
theorem step_of_rsp_other {s : State} {call : Nat} {bytes : List Byte} {rest : List Event}
    (hi : s.inbox = .rsp call bytes :: rest) (hcall : ∀ p, s.query = some p → p.call ≠ call) :
    step s = .next { s with inbox := rest } := by
  rw [step_of_outside hi rfl]
  exact handle_rsp_other bytes hcall

/-- Settles O51: the failure is taken at once, and closes the query whose frame it names, if that one is in progress. -/
theorem transportFailureEndsTheCommand : Obligations.TransportFailureEndsTheCommand := by
  intro s call why rest hi
  rw [step_of_outside hi rfl]
  refine ⟨?_, fun hcall => handle_failed_other why hcall⟩
  rintro p hq rfl
  exact handle_failed_awaited (s := { s with inbox := rest }) why hq

/-- Settles O52: a reset is taken at once. -/
theorem resetAbandonsAndKeepsConstants : Obligations.ResetAbandonsAndKeepsConstants := by
  intro s rest hi
  rw [step_of_outside hi rfl]
  rfl

/-- Settles O53: an answer nobody awaits is dropped, and with nothing in line nothing is taken, query or no query. -/
theorem unaskedBytesAreNeverRead : Obligations.UnaskedBytesAreNeverRead := by
  intro s call bytes rest
  refine ⟨fun hcall hi => step_of_rsp_other hi hcall, fun hempty => step_of_idle ?_⟩
  rw [nextEvent]
  cases hq : s.query with
  | none => simp only [hempty]
  | some p => simp only [hempty, firstReady]

/-- With no query in progress, the answer to a frame already on the wire trace is dropped after any instruction: a query
that the instruction begins awaits the answer to a later frame. -/
theorem step_drops_late_answer {s : State} {e : Event} {i : Instr} {call : Nat} {late : List Byte} {rest : List Event}
    (hq : s.query = none) (hi : s.inbox = e :: .rsp call late :: rest) (hasks : e.asks s.cfg = some i)
    (hcall : call < s.wire.length) :
    ∃ u, step s = .next u ∧ exec i { s with inbox := .rsp call late :: rest } = .next u ∧
      step u = .next { u with inbox := rest } := by
  obtain ⟨u, hexec, -⟩ := everyInstructionAnswers i { s with inbox := .rsp call late :: rest }
  obtain ⟨-, hinbox, hquery⟩ := exec_frame hexec
  refine ⟨u, (step_of_asks hq hi hasks).trans hexec, hexec, step_of_rsp_other hinbox fun p hp => ?_⟩
  rcases hquery p hp with hold | hnew
  · cases hq.symm.trans hold
  · have hlater : p.call = s.wire.length := hnew
    omega

/-- Settles O54: the reset leaves no query in progress, and the abandoned query's frame is on the wire trace. -/
theorem abandonedBytesAreHandedToNobody : Obligations.AbandonedBytesAreHandedToNobody := by
  intro s p e i late rest _ hcall hi hasks
  have hreset := resetAbandonsAndKeepsConstants s (e :: .rsp p.call late :: rest) hi
  obtain ⟨u, hstep, hexec, hlate⟩ := step_drops_late_answer (s :=
    { s with inbox := e :: .rsp p.call late :: rest, query := none, frame := [], raw := [], resp := none })
    rfl rfl hasks hcall
  exact ⟨_, u, hreset, rfl, rfl, hstep, hexec, hlate⟩

/-- The request bytes of CMD.GETSETTINGS's format phase, at a port of any sizes. -/
theorem decodeRequest_getSettings (p : Port) : decodeRequest p [0x4e, 0x00] = .ok (.cmdGetSettings none) := rfl

/-- The format phase of CMD.GETSETTINGS, asked for by its bytes (43_commands.md R155). -/
theorem step_getSettings_format {s : State} {rest : List Event} (hq : s.query = none)
    (hi : s.inbox = .request [0x4e, 0x00] :: rest) :
    step s = .next (handedOver { s with inbox := rest } (frameBytes 0 0 0 s.cfg.opcodes.getSettings)
      (some .getSettings) 17) := by
  have hasks : (Event.request [0x4e, 0x00]).asks s.cfg = some (.cmdGetSettings none) :=
    Decoded.instr_eq_some_iff.mpr (decodeRequest_getSettings s.cfg.port)
  rw [step_of_asks hq hi hasks]
  exact fixedCommand_eq _ (some .getSettings) _

/-- The completion phase of CMD.GETSETTINGS, on the bytes that answer its frame (43_commands.md R155). -/
theorem step_getSettings_completion {s : State} {call : Nat} {raw : List Byte} {rest : List Event}
    (hq : s.query = some ⟨.getSettings, call⟩) (hi : s.inbox = .rsp call raw :: rest) (hlen : 17 ≤ raw.length) :
    step s = .next (completed { s with inbox := rest } raw (parsedResponse s.cfg.tables raw)) := by
  rw [step_of_outside hi rfl]
  exact (handle_rsp_awaited (s := { s with inbox := rest }) (p := ⟨.getSettings, call⟩) raw hq).trans
    (exec_cmdGetSettings_of_le _ hlen)

/-- Settles O55: the format phase makes the answer in line the awaited one, and its bytes complete the query. -/
theorem settingsQueryEndToEnd : Obligations.SettingsQueryEndToEnd := by
  intro s raw rest hq hlen hi
  exact ⟨_, _, step_getSettings_format hq hi, step_getSettings_completion rfl rfl hlen, rfl, rfl, rfl, rfl, rfl, rfl⟩

/-! ### Every step -/

/-- A step changes nothing, or takes an event out of the line and handles it. -/
theorem step_idle_or_handles (s : State) :
    step s = .next s ∨ ∃ e inbox, step s = handle e { s with inbox := inbox } := by
  cases hnext : nextEvent s with
  | none => exact .inl (step_of_idle hnext)
  | some taken => exact .inr ⟨taken.1, taken.2, step_of_nextEvent hnext⟩

/-- Settles O56: an instruction, an illegal `fn`, a dropped event and a reset each add at most one of both. -/
theorem stepAppendsAndKeepsConstants : Obligations.StepAppendsAndKeepsConstants := by
  intro s t hstep
  rcases step_idle_or_handles s with hidle | ⟨e, inbox, htaken⟩
  · cases hidle.symm.trans hstep
    exact ⟨rfl, .inl rfl, .inl rfl⟩
  · have hhandled := handle_cases e { s with inbox := inbox }
    rw [← htaken, hstep] at hhandled
    cases hhandled with
    | runs i h =>
      obtain ⟨hresp, hwire⟩ := exec_appends h.symm
      exact ⟨(exec_frame h.symm).1, .inr hresp, hwire⟩
    | illegal fn h =>
      cases h
      exact ⟨rfl, .inr ⟨_, rfl⟩, .inl rfl⟩
    | refuses why h => cases h
    | closes q h =>
      cases h
      exact ⟨rfl, .inl rfl, .inl rfl⟩
    | resets h =>
      cases h
      exact ⟨rfl, .inl rfl, .inl rfl⟩

/-- Settles O57: an instruction always answers, and no other event reads a buffer. -/
theorem noStepFaults : Obligations.NoStepFaults := by
  intro s f hstep
  rcases step_idle_or_handles s with hidle | ⟨e, inbox, htaken⟩
  · cases hidle.symm.trans hstep
  · have hhandled := handle_cases e { s with inbox := inbox }
    rw [← htaken, hstep] at hhandled
    cases hhandled with
    | runs i h =>
      obtain ⟨t, ht, -⟩ := everyInstructionAnswers i { s with inbox := inbox }
      cases h.trans ht
    | illegal fn h => cases h
    | refuses why h => cases h
    | closes q h => cases h
    | resets h => cases h

end Sys2Proof
end

section
/-! The invariant (Safety.lean): it holds after reset, and every event that is taken keeps it. The clause on `FRAME`
and each shape of next state have a lemma of their own. -/

namespace Sys2Proof

open Machine

/-! ### The clause on `FRAME` (10_state.md R29) -/

/-- `FRAME` holds a value only with an OK response that carries the same six bytes. -/
theorem frameClause_of_frameOk {fr : Memory} {r : Response} (h : frameOk fr r) (hne : fr ≠ []) :
    ∃ r' f, some r = some r' ∧ r'.status = .ok ∧ r'.frame = some f ∧ Memory.bytesAt fr 0 6 = some f ∧
      ∀ a, 6 ≤ a → Memory.byteAt fr a = none := by
  obtain hnil | ⟨f, hok, hf, hlen, rfl⟩ := h
  · exact absurd hnil hne
  · refine ⟨r, f, rfl, hok, hf, ?_, fun a ha => ?_⟩
    · rw [Memory.bytesAt_ofBytes f 0 6 (by omega), List.drop_zero, List.take_of_length_le (by omega)]
    · rw [Memory.byteAt_ofBytes]
      exact List.getElem?_eq_none (by omega)

theorem wf_of_frameOk {fr : Memory} {r : Response} (h : frameOk fr r) : Memory.wf fr = true := by
  obtain rfl | ⟨f, -, -, -, rfl⟩ := h
  · rfl
  · exact Memory.wf_ofBytes f

/-! ### What keeps the invariant -/

section
variable {s : State}

theorem inv_setInbox (h : Inv s) (inbox : List Event) : Inv { s with inbox := inbox } := h

/-- The end of a query, for whichever reason. -/
theorem inv_closeQuery (h : Inv s) : Inv { s with query := none } := by
  obtain ⟨hcfg, hframe, hraw, hresponses, hlast, hdriven, hwire, -⟩ := h
  exact ⟨hcfg, hframe, hraw, hresponses, hlast, hdriven, hwire, nofun⟩

theorem inv_doReset (h : Inv s) : Inv s.doReset := by
  obtain ⟨hcfg, -, -, hresponses, -, -, hwire, -⟩ := h
  exact ⟨hcfg, rfl, rfl, hresponses, .inl rfl, fun hne => absurd rfl hne, hwire, nofun⟩

theorem inv_answered {fr : Memory} {raw : List Byte} {r : Response} (h : Inv s) (hr : responseWf r)
    (hf : frameOk fr r) : Inv (answered s fr raw r) := by
  obtain ⟨hcfg, -, -, hresponses, -, -, hwire, hquery⟩ := h
  exact ⟨hcfg, wf_of_frameOk hf, Memory.wf_ofBytes raw,
    List.forall_mem_append.mpr ⟨hresponses, List.forall_mem_singleton.mpr hr⟩, .inr List.getLast?_concat.symm,
    frameClause_of_frameOk hf, hwire, hquery⟩

theorem inv_raised {raw : List Byte} {e : Status} {info : Option Int} (h : Inv s) (he : e ≠ .ok) :
    Inv (raised s raw e info) :=
  inv_answered h (plain_error e info he).1 (.inl rfl)

/-- The response of a hand-over is of the kinds the rules allow (43_commands.md R158). -/
theorem responseWf_handedOver {k : FrameKind} {a b c o : Byte} {e : Bool} (he : e = (kindRspLen k != 0)) :
    responseWf { status := .ok, warnBits := warn000, frame := some (frameBytes a b c o), expect := some e,
                 rspLen := some (kindRspLen k) } := by
  refine ⟨fun herr => absurd rfl herr, fun _ => rfl, ?_, ?_, by simp⟩
  · rintro f ⟨⟩
    exact wellFormedFrame_iff.mpr ⟨a, b, c, o, rfl⟩
  · rintro n ⟨⟩
    exact ⟨by cases k <;> decide, congrArg some he, rfl⟩

/-- A hand-over is an answer that also puts the frame on the wire trace and makes its query the one in progress. -/
theorem inv_handedOver {k : FrameKind} {a b c : Byte} {q : Option Query} (h : Inv s) (hk : k.form.fits a b c = true)
    (he : q.isSome = (kindRspLen k != 0)) (hq : ∀ q', q = some q' → q'.rspLen = kindRspLen k) :
    Inv (handedOver s (frameBytes a b c (k.opcode s.cfg.opcodes)) q (kindRspLen k)) := by
  have hanswered := inv_answered (fr := Memory.ofBytes (frameBytes a b c (k.opcode s.cfg.opcodes))) (raw := []) h
    (responseWf_handedOver he) (.inr ⟨_, rfl, rfl, rfl, rfl⟩)
  obtain ⟨hcfg, hframe, hraw, hresponses, hlast, hdriven, hwire, -⟩ := hanswered
  refine ⟨hcfg, hframe, hraw, hresponses, hlast, hdriven, ?wire, ?query⟩
  case wire =>
    exact List.forall_mem_append.mpr ⟨hwire, List.forall_mem_singleton.mpr ⟨k, a, b, c, hk, rfl, rfl, he⟩⟩
  case query =>
    intro p hp
    obtain ⟨q', rfl, rfl⟩ := Option.map_eq_some_iff.mp hp
    exact ⟨by rw [handedOver_wire, List.length_append, List.length_singleton], _, List.getLast?_concat, rfl,
      (hq q' rfl).symm⟩

/-- Every instruction keeps the invariant, by the shape of its next state. -/
theorem inv_exec {i : Instr} {t : State} (h : Inv s) (hexec : exec i s = .next t) : Inv t := by
  cases shape_of_exec hexec with
  | answers fr raw r ht hr hf =>
    cases ht
    exact inv_answered h hr.1 hf
  | hands k a b c q hk ht he hq =>
    cases ht
    exact inv_handedOver h hk he hq
  | completes raw r ht hr =>
    cases ht
    exact inv_closeQuery (inv_answered (raw := raw) h hr.1 (.inl rfl))

/-- Every event that is taken keeps the invariant. -/
theorem inv_handle {e : Event} {t : State} (h : Inv s) (hhandle : handle e s = .next t) : Inv t := by
  have hhandled := handle_cases e s
  rw [hhandle] at hhandled
  cases hhandled with
  | runs i hrun => exact inv_exec h hrun.symm
  | illegal fn ht =>
    cases ht
    exact inv_raised h (by decide)
  | refuses why ht => cases ht
  | closes q ht hq =>
    cases ht
    obtain rfl | rfl := hq
    · exact inv_closeQuery h
    · exact h
  | resets ht =>
    cases ht
    exact inv_doReset h

end

/-- Settles O58: a step takes an event or changes nothing, and the line is no part of the invariant. -/
theorem stepKeepsTheInvariant : Obligations.StepKeepsTheInvariant := by
  intro s t h hstep
  rcases step_idle_or_handles s with hidle | ⟨e, inbox, htaken⟩
  · cases hidle.symm.trans hstep
    exact h
  · exact inv_handle (inv_setInbox h inbox) (htaken.symm.trans hstep)

/-- Settles O59: the default configuration is admissible, and nothing is driven, answered or sent yet. -/
theorem resetMeetsTheInvariant : Obligations.ResetMeetsTheInvariant :=
  ⟨defaultConfig_admissible, Memory.wf_reset.1, Memory.wf_reset.2, List.forall_mem_nil _, .inl rfl,
    fun hne => absurd rfl hne, List.forall_mem_nil _, nofun⟩

/-- Settles O60: the reset state is written out so. -/
theorem resetState : Obligations.ResetState := ⟨rfl, rfl, rfl, rfl⟩

end Sys2Proof
end
